-- ==== Sys2Proof/Word.lean ====
section
/-! DEFINITION. The data widths of 00_scope.md R7 and R10: bytes, 32-bit words, the four-word state and the
sixteen-word block. -/

namespace Sys2Proof

/-- A byte of MEM (20_memory.md R60). -/
abbrev Byte := BitVec 8

/-- A 32-bit word (00_scope.md R7, R10). -/
abbrev Word := BitVec 32

/-- Four words: H, DOUT, VL, VR (00_scope.md R7). -/
abbrev Quad := Vector Word 4

/-- Sixteen words: the message block X (00_scope.md R7). -/
abbrev Block := Vector Word 16

end Sys2Proof
end

