-- ==== Sys2Proof/Machine/Bits.lean ====
section
/-! DEFINITION. Byte order and rotation (00_scope.md R11, R12). -/

namespace Sys2Proof.Machine

/-- `LE32([b0,b1,b2,b3])` (00_scope.md R12, 20_memory.md R66). -/
def le32 (b0 b1 b2 b3 : Byte) : Word :=
  b0.setWidth 32 ||| (b1.setWidth 32 <<< 8) ||| (b2.setWidth 32 <<< 16) ||| (b3.setWidth 32 <<< 24)

/-- Byte k of a word, `w[8k+7:8k]` (00_scope.md R10). -/
def byteOf (w : Word) (k : Nat) : Byte := w.extractLsb' (8 * k) 8

/-- `bytesLE32(w)` (00_scope.md R12). -/
def bytesLE32 (w : Word) : List Byte := [byteOf w 0, byteOf w 1, byteOf w 2, byteOf w 3]

/-- `zeros(n)` (00_scope.md R12). -/
def zeros (n : Nat) : List Byte := List.replicate n 0#8

/-- `rol(a, s)` (00_scope.md R11), for 1 <= s <= 31. -/
def rol (a : Word) (s : Nat) : Word := (a <<< s) ||| (a >>> (32 - s))

end Sys2Proof.Machine
end

