-- ==== Sys2Proof/Machine/Rom.lean ====
section
/-! DEFINITION. The constants of the hardware: the initial state IV (43_sequencer.md R180) and the constant ROM
CROM (42_compression.md R141 to R146). The tables are the spec's; it marks them as supplied from general knowledge
(93_implementation_defined.md G2; log entry 18). -/

namespace Sys2Proof.Machine

/-- The initial state (43_sequencer.md R180). -/
def iv : Quad := #v[0x67452301#32, 0xEFCDAB89#32, 0x98BADCFE#32, 0x10325476#32]

/-- The two lanes of the compression engine (00_scope.md R14, glossary "Lane"). -/
inductive Lane where
  | left
  | right
  deriving DecidableEq, Repr

/-- The five mixing functions of 42_compression.md R141; f5 is listed there and selected by no step. -/
inductive Mix where
  | f1
  | f2
  | f3
  | f4
  | f5
  deriving DecidableEq, Repr

/-- The value of a mixing function (42_compression.md R141). -/
def mix : Mix → Word → Word → Word → Word
  | .f1, x, y, z => x ^^^ y ^^^ z
  | .f2, x, y, z => z ^^^ (x &&& (y ^^^ z))
  | .f3, x, y, z => z ^^^ (x ||| ~~~y)
  | .f4, x, y, z => y ^^^ (z &&& (x ^^^ y))
  | .f5, x, y, z => x ^^^ (y ||| ~~~z)

/-- The function a lane uses in round index q = j div 16 (42_compression.md R142). -/
def fSel : Lane → Nat → Mix
  | .left, 0 => .f1
  | .left, 1 => .f2
  | .left, 2 => .f3
  | .left, _ => .f4
  | .right, 0 => .f4
  | .right, 1 => .f3
  | .right, 2 => .f2
  | .right, _ => .f1

/-- The round constants KL and KR by round index q (42_compression.md R143). -/
def kConst : Lane → Nat → Word
  | .left, 0 => 0x00000000#32
  | .left, 1 => 0x5A827999#32
  | .left, 2 => 0x6ED9EBA1#32
  | .left, _ => 0x8F1BBCDC#32
  | .right, 0 => 0x50A28BE6#32
  | .right, 1 => 0x5C4DD124#32
  | .right, 2 => 0x6D703EF3#32
  | .right, _ => 0x00000000#32

/-- The entry for step j of a table written as four rows of sixteen: row j div 16, column j mod 16
(42_compression.md R144). -/
def entry (rows : List (List Nat)) (j : Nat) : Nat := (rows.getD (j / 16) []).getD (j % 16) 0

/-- Word selection, left lane (42_compression.md R144). -/
def rLRows : List (List Nat) :=
  [[0, 1, 2, 3, 4, 5, 6, 7, 8, 9, 10, 11, 12, 13, 14, 15],
   [7, 4, 13, 1, 10, 6, 15, 3, 12, 0, 9, 5, 2, 14, 11, 8],
   [3, 10, 14, 4, 9, 15, 8, 1, 2, 7, 0, 6, 13, 11, 5, 12],
   [1, 9, 11, 10, 0, 8, 12, 4, 13, 3, 7, 15, 14, 5, 6, 2]]

/-- Word selection, right lane (42_compression.md R144). -/
def rRRows : List (List Nat) :=
  [[5, 14, 7, 0, 9, 2, 11, 4, 13, 6, 15, 8, 1, 10, 3, 12],
   [6, 11, 3, 7, 0, 13, 5, 10, 14, 15, 8, 12, 4, 9, 1, 2],
   [15, 5, 1, 3, 7, 14, 6, 9, 11, 8, 12, 2, 10, 0, 4, 13],
   [8, 6, 4, 1, 3, 11, 15, 0, 5, 12, 2, 13, 9, 7, 10, 14]]

/-- Rotation amounts, left lane (42_compression.md R145). -/
def sLRows : List (List Nat) :=
  [[11, 14, 15, 12, 5, 8, 7, 9, 11, 13, 14, 15, 6, 7, 9, 8],
   [7, 6, 8, 13, 11, 9, 7, 15, 7, 12, 15, 9, 11, 7, 13, 12],
   [11, 13, 6, 7, 14, 9, 13, 15, 14, 8, 13, 6, 5, 12, 7, 5],
   [11, 12, 14, 15, 14, 15, 9, 8, 9, 14, 5, 6, 8, 6, 5, 12]]

/-- Rotation amounts, right lane (42_compression.md R145). -/
def sRRows : List (List Nat) :=
  [[8, 9, 9, 11, 13, 15, 15, 5, 7, 7, 8, 11, 14, 14, 12, 6],
   [9, 13, 15, 7, 12, 8, 9, 11, 7, 7, 12, 7, 6, 15, 13, 11],
   [9, 7, 15, 11, 8, 6, 6, 14, 12, 13, 5, 14, 13, 13, 7, 5],
   [15, 5, 8, 11, 14, 14, 6, 14, 6, 9, 12, 9, 12, 5, 15, 8]]

/-- `rλ[j]`, the index of the message word step j adds (42_compression.md R144, R148). -/
def wSel : Lane → Nat → Nat
  | .left, j => entry rLRows j
  | .right, j => entry rRRows j

/-- `sλ[j]`, the left rotation of step j (42_compression.md R145). -/
def rotAmt : Lane → Nat → Nat
  | .left, j => entry sLRows j
  | .right, j => entry sRRows j

/-- The FSEL code n - 1 of f_n (42_compression.md R146). f5 has no code: no step selects it. -/
def fSelCode : Mix → BitVec 2
  | .f1 => 0#2
  | .f2 => 1#2
  | .f3 => 2#2
  | .f4 => 3#2
  | .f5 => 0#2

/-- The 12-bit step entry of the CROM at address j: RND, FSEL, ROT, WIDX from bit 11 down
(42_compression.md R146; one legal layout, not observable). -/
def romWord (l : Lane) (j : Nat) : BitVec 12 :=
  BitVec.ofNat 2 (j / 16) ++ fSelCode (fSel l (j / 16)) ++ BitVec.ofNat 4 (rotAmt l j) ++ BitVec.ofNat 4 (wSel l j)

end Sys2Proof.Machine
end

