-- ==== Sys2Proof/Machine/Compression.lean ====
section
/-! DEFINITION. The dual-lane compression engine CE as a pure function (42_compression.md R147 to R155). -/

namespace Sys2Proof.Machine

/-- Index of the lane register playing A at step j (42_compression.md R147). -/
def roleA (j : Nat) : Fin 4 := 0 - Fin.ofNat 4 j

/-- Index of the lane register playing B at step j (42_compression.md R147). -/
def roleB (j : Nat) : Fin 4 := 1 - Fin.ofNat 4 j

/-- Index of the lane register playing C at step j (42_compression.md R147). -/
def roleC (j : Nat) : Fin 4 := 2 - Fin.ofNat 4 j

/-- Index of the lane register playing D at step j (42_compression.md R147). -/
def roleD (j : Nat) : Fin 4 := 3 - Fin.ofNat 4 j

/-- PMUX: the message word of step j (42_compression.md R148). -/
def messageWord (l : Lane) (j : Nat) (x : Block) : Word := x[Fin.ofNat 16 (wSel l j)]

/-- The sum t of step j, modulo 2^32 (42_compression.md R149). -/
def stepSum (l : Lane) (j : Nat) (v : Quad) (x : Block) : Word :=
  v[roleA j] + mix (fSel l (j / 16)) v[roleB j] v[roleC j] v[roleD j] + messageWord l j x + kConst l (j / 16)

/-- RFstep: step j of a lane (42_compression.md R149). -/
def rfStep (l : Lane) (j : Nat) (v : Quad) (x : Block) : Quad :=
  v.set (roleA j) (rol (stepSum l j v x) (rotAmt l j))

/-- Both lanes after their first n steps, loaded from h (42_compression.md R150, R151, R155). -/
def lanesAfter (h : Quad) (x : Block) : Nat → Quad × Quad
  | 0 => (h, h)
  | j + 1 => (rfStep .left j (lanesAfter h x j).1 x, rfStep .right j (lanesAfter h x j).2 x)

/-- The final combination (42_compression.md R153). -/
def combine (h vl vr : Quad) : Quad :=
  #v[h[1] + vl[2] + vr[3], h[2] + vl[3] + vr[0], h[3] + vl[0] + vr[1], h[0] + vl[1] + vr[2]]

/-- `compress(h, X)` (42_compression.md R140, R155). -/
def compressFn (h : Quad) (x : Block) : Quad :=
  combine h (lanesAfter h x 64).1 (lanesAfter h x 64).2

end Sys2Proof.Machine
end

