-- ==== Sys2Proof/Machine/Padding.lean ====
section
/-! DEFINITION. The padding/length encoder PE as a pure function (41_padding.md R120 to R125). -/

namespace Sys2Proof.Machine

/-- `padlen(L)` (41_padding.md R120). -/
def padlen (L : Nat) : Nat := (if L % 64 < 56 then 56 else 120) - L % 64

/-- `P(L)`, the padded length (41_padding.md R121). -/
def paddedLen (L : Nat) : Nat := L + padlen L + 8

/-- The 8-byte length field: the low 32 bits of the bit length, little-endian, then four zero bytes
(41_padding.md R123, R128). -/
def lengthField (L : Nat) : List Byte := bytesLE32 (BitVec.ofNat 32 (8 * L)) ++ zeros 4

/-- What follows the message: 0x80, zeros, the length field (41_padding.md R122, R126). -/
def padTail (L : Nat) : List Byte := 0x80#8 :: zeros (padlen L - 1) ++ lengthField L

/-- `pad(m)` (41_padding.md R124). -/
def padMessage (m : List Byte) : List Byte := m ++ padTail m.length

end Sys2Proof.Machine
end

