-- ==== Sys2Proof/Machine/Driver.lean ====
section
/-! DEFINITION. The driver's pure functions (43_sequencer.md R182, R183, R187, R190). -/

namespace Sys2Proof.Machine

/-- Sixteen little-endian words from the bytes at a, a+1, ... (43_sequencer.md R182, 20_memory.md R66). -/
def wordsAt (byte : Nat → Byte) (a : Nat) : Block :=
  Vector.ofFn fun i : Fin 16 =>
    le32 (byte (a + 4 * i)) (byte (a + 4 * i + 1)) (byte (a + 4 * i + 2)) (byte (a + 4 * i + 3))

/-- `ser(h)` (43_sequencer.md R183). -/
def ser (h : Quad) : List Byte := bytesLE32 h[0] ++ bytesLE32 h[1] ++ bytesLE32 h[2] ++ bytesLE32 h[3]

/-- The state after the first n blocks of a padded buffer, from IV, in order (43_sequencer.md R187). -/
def foldBytes (p : List Byte) : Nat → Quad
  | 0 => iv
  | k + 1 => compressFn (foldBytes p k) (wordsAt (fun o => p.getD o 0#8) (64 * k))

/-- `digest_fn(p)` of a padded buffer (43_sequencer.md R187). -/
def digestFn (p : List Byte) : List Byte := ser (foldBytes p (p.length / 64))

/-- `hash_fn(m)` (43_sequencer.md R190). -/
def hashFn (m : List Byte) : List Byte := digestFn (padMessage m)

end Sys2Proof.Machine
end

