-- ==== Sys2Proof/Config.lean ====
section
/-! DEFINITION. What an implementation fixes (00_scope.md R8) and the free draws of the spec
(10_state.md R38, 20_memory.md R64 and R79). -/

namespace Sys2Proof

/-- The OPEN parameters of 00_scope.md R8. They stand in State, no step changes them, and statements hold for
every value of them. -/
structure Params where
  /-- MEM_SIZE, the byte size of MEM (20_memory.md R60). -/
  memSize : Nat
  /-- REG_BASE, the Host address of the register window (20_memory.md R61). -/
  regBase : Nat
  deriving DecidableEq, Repr

/-- The bounds the spec sets on MEM_SIZE (00_scope.md R8, 20_memory.md R60). -/
def Params.ok (p : Params) : Bool :=
  decide (64 ≤ p.memSize) && decide (p.memSize ≤ 2 ^ 32 - 64)

/-- DESIGN CHOICE (log entries 1 and 2): the parameters of `State.reset`. 256 is the MEM_SIZE that
95_test_vectors.md takes unless a vector says otherwise. -/
def Config.defaultParams : Params := { memSize := 256, regBase := 0 }

/-- Free draw of a word, by the number of the draw: a register read while BUSY = 1 (10_state.md R38). It has no
body, so nothing can be proved about its values (log entry 11). -/
opaque Config.freeWord : Nat → Word

/-- Free draw of a byte: a Host read of an unwritten MEM byte (20_memory.md R64; log entry 11). -/
opaque Config.freeByte : Nat → Byte

/-- Free choice between the old and the new value of a byte the running command writes
(20_memory.md R79; log entry 11). -/
opaque Config.freeBit : Nat → Bool

end Sys2Proof
end

