-- ==== Sys2Proof/Syntax.lean ====
section
/-! DEFINITION. The commands of 30_encoding.md R91, one constructor per row of spec/opcode_table.json. -/

namespace Sys2Proof

/-- A command of the Core (30_encoding.md R91). LOADBLK carries its block index as the assembler's integer
(R110); `Instr.wellFormed` bounds it. -/
inductive Instr where
  /-- 43_sequencer.md R181 -/
  | init
  /-- 41_padding.md R126 -/
  | pad
  /-- 43_sequencer.md R184 -/
  | loadblk (n : Nat)
  /-- 42_compression.md R160 -/
  | compress
  /-- 43_sequencer.md R186 -/
  | final
  /-- 43_sequencer.md R188 -/
  | digest
  /-- 43_sequencer.md R192 -/
  | hash
  deriving DecidableEq, Repr

end Sys2Proof
end

