-- ==== Sys2Proof/Machine/State.lean ====
section
/-! DEFINITION. The state of one instance of the block (10_state.md), of its MEM (20_memory.md), and of the
accesses its Host still has to make, as plain data; the reasons a step can stop; reset. -/

namespace Sys2Proof.Machine

/-- STATUS.ECODE: the four codes ever produced (10_state.md R26, 60_exceptions.md R220). -/
inductive ECode where
  | none
  | illegalCmd
  | unalignedLen
  | range
  deriving DecidableEq, Repr

/-- The fields of STATUS (10_state.md R26). Bits 31:8 are reserved and read 0 (`Status.toWord`). -/
structure Status where
  busy : Bool
  done : Bool
  err : Bool
  ovr : Bool
  ecode : ECode
  deriving DecidableEq, Repr

/-- The registers the window names (30_encoding.md R95); the three reserved offsets are `reserved`. -/
inductive Reg where
  | cmd
  | status
  | msgBase
  | msgLen
  | plen
  | reserved
  | h (i : Fin 4)
  | dout (i : Fin 4)
  | x (i : Fin 16)
  deriving DecidableEq, Repr

/-- The states of the reference sequencer (43_sequencer.md R200). PADW and LOAD go one byte at a time: they carry the
number of bytes already done. `initw` is the single write of H by which INIT goes from CHECK to DONE
(log entry 21). -/
inductive Fsm where
  | idle
  | check
  | errset
  | padw (k : Nat)
  | initw
  | ivld
  | load (k : Nat)
  | linit
  | rnd
  | comb
  | latch
  | done
  deriving DecidableEq, Repr

/-- One access from outside the block. -/
inductive Input where
  /-- A Host register read at a Host address, `width` bits wide (30_encoding.md R96). -/
  | regRead (addr width : Nat)
  /-- A Host register write of `v` at a Host address, `width` bits wide (30_encoding.md R96). -/
  | regWrite (addr width : Nat) (v : Word)
  /-- A Host read of one MEM byte (20_memory.md R63). -/
  | memRead (off : Nat)
  /-- A Host write of one MEM byte (20_memory.md R63). -/
  | memWrite (off : Nat) (b : Byte)
  /-- POLL: read STATUS until BUSY = 0 (30_encoding.md R112). -/
  | poll
  /-- The platform asserts and releases reset (70_reset_and_hazards.md R250). -/
  | reset
  deriving DecidableEq, Repr

/-- What a Host read returned: a Host variable of 30_encoding.md R111. -/
inductive Reply where
  | word (w : Word)
  | byte (b : Byte)
  deriving DecidableEq, Repr

/-- The two agents that can both be able to move (10_state.md R20, 60_exceptions.md R232). -/
inductive Agent where
  | host
  | core
  deriving DecidableEq, Repr

/-- MEM: the written bytes, by strictly rising offset. An offset that is not listed is a byte nothing has
written: it holds no value (20_memory.md R64; log entry 5). -/
abbrev Mem := List Host.Cell

/-- One instance of the block with its MEM and its Host's pending accesses. -/
structure State where
  /-- MEM_SIZE and REG_BASE (00_scope.md R8); no step changes them (log entries 1 and 2). -/
  params : Params
  /-- STATUS (10_state.md R25, R26). -/
  status : Status
  /-- MSG_BASE (10_state.md R27). -/
  msgBase : Word
  /-- MSG_LEN (10_state.md R28). -/
  msgLen : Word
  /-- PLEN (10_state.md R29). -/
  plen : Word
  /-- H0..H3 (10_state.md R30). -/
  h : Quad
  /-- DOUT0..DOUT3 (10_state.md R31). -/
  dout : Quad
  /-- X0..X15 (10_state.md R32). -/
  x : Block
  /-- VL0..VL3, hidden (10_state.md R33). -/
  vl : Quad
  /-- VR0..VR3, hidden (10_state.md R33). -/
  vr : Quad
  /-- CMDL, hidden: the latched command word (10_state.md R35); it keeps the word between commands (log entry 7). -/
  cmdl : Word
  /-- STEP, hidden (10_state.md R35): moved only by the reference sequencer. -/
  stepCtr : Nat
  /-- BLK, hidden (10_state.md R35): moved only by the reference sequencer. -/
  blkCtr : Nat
  /-- The state of the reference sequencer, hidden (10_state.md R35, 43_sequencer.md R200). -/
  fsm : Fsm
  /-- MEM (20_memory.md R60). -/
  mem : Mem
  /-- The model's own: the accesses still to come, oldest first (20_memory.md R73; log entry 9). -/
  inputs : List Input
  /-- The model's own: who moves where Host and Core both can, oldest choice first; none left means the Core
  (60_exceptions.md R232; log entry 8). -/
  turns : List Agent
  /-- The model's own: what the Host's reads returned, newest first (30_encoding.md R111; log entry 10). -/
  replies : List Reply
  /-- The model's own: how many free draws were taken (10_state.md R38; log entry 11). -/
  draws : Nat
  deriving DecidableEq, Repr

/-- The reasons the machine stops with a fault (60_exceptions.md R228). -/
inductive Fault where
  /-- BUS_ERROR: raised by a Host register access that is not an aligned 32-bit access inside the window
  (20_memory.md R67, 30_encoding.md R96). Safe: the spec faults it. -/
  | busError (addr width : Nat)
  /-- UNINIT_READ: raised by LOADBLK, DIGEST and HASH when they read a MEM byte nothing has written; it names the
  command and the offset (20_memory.md R64). Safe: the spec faults it. -/
  | uninitRead (cmd : Instr) (off : Nat)
  /-- HOST_MEM_RACE: raised by a Host MEM write into the running command's footprint; it names the offset
  (20_memory.md R79). Safe: the spec faults it. -/
  | hostMemRace (off : Nat)
  /-- Raised by a Host MEM access at or beyond MEM_SIZE, where MEM has no byte (20_memory.md R60, R71). Safe: the
  model stops where the spec gives no effect (log entry 12). -/
  | hostMemOutside (off : Nat)
  deriving DecidableEq, Repr

/-- The reasons the model gives no step. -/
inductive Refusal where
  /-- Raised by an arm of exec whose command has no meaning yet. Safe. No arm of this model answers it. -/
  | notModelled (mnemonic : String)
  /-- Raised by the Core step when BUSY = 1 and CMDL holds no legal word. Safe: 30_encoding.md R101 says that no
  other op value can reach this step, and no run from reset does (log entry 17). -/
  | illegalLatch (w : Word)
  deriving DecidableEq, Repr

/-- What a step answers. -/
abbrev Result := Host.Outcome State Fault Refusal

/-- STATUS after reset: 0x00000000 (10_state.md R36). -/
def Status.reset : Status := { busy := false, done := false, err := false, ovr := false, ecode := .none }

/-- The machine right after reset with parameters p and MEM never written (10_state.md R36). The hidden
registers, which the spec leaves unspecified, are 0 by DESIGN CHOICE (log entries 3 and 4). -/
def State.resetWith (p : Params) : State where
  params := p
  status := Status.reset
  msgBase := 0#32
  msgLen := 0#32
  plen := 0#32
  h := iv
  dout := #v[0#32, 0#32, 0#32, 0#32]
  x := #v[0#32, 0#32, 0#32, 0#32, 0#32, 0#32, 0#32, 0#32, 0#32, 0#32, 0#32, 0#32, 0#32, 0#32, 0#32,
    0#32]
  vl := #v[0#32, 0#32, 0#32, 0#32]
  vr := #v[0#32, 0#32, 0#32, 0#32]
  cmdl := 0#32
  stepCtr := 0
  blkCtr := 0
  fsm := .idle
  mem := []
  inputs := []
  turns := []
  replies := []
  draws := 0

/-- The machine right after reset (10_state.md R36). -/
def State.reset : State := State.resetWith Config.defaultParams

end Sys2Proof.Machine
end

