-- ==== Sys2Proof/Machine/Flags.lean ====
section
/-! DEFINITION. STATUS: its word and every update the spec makes to it (10_state.md R26, 30_encoding.md R100, R101). -/

namespace Sys2Proof.Machine

/-- The code of ECODE (60_exceptions.md R220). -/
def ECode.toBits : ECode → BitVec 4
  | .none => 0#4
  | .illegalCmd => 1#4
  | .unalignedLen => 2#4
  | .range => 3#4

/-- STATUS as read: ECODE in bits 7:4, OVR, ERR, DONE, BUSY in bits 3 to 0, bits 31:8 zero (10_state.md R26). -/
def Status.toWord (s : Status) : Word :=
  0#24 ++ s.ecode.toBits ++ BitVec.ofBool s.ovr ++ BitVec.ofBool s.err ++ BitVec.ofBool s.done ++
    BitVec.ofBool s.busy

/-- Every accept clears DONE, ERR, ECODE and OVR before the word is judged (30_encoding.md R100). -/
def Status.cleared (s : Status) : Status :=
  { s with done := false, err := false, ecode := .none, ovr := false }

/-- Accept of a legal word (30_encoding.md R100). -/
def Status.accepted (s : Status) : Status := { s.cleared with busy := true }

/-- Accept of an illegal word: ILLEGAL_CMD (30_encoding.md R100, 60_exceptions.md R222). -/
def Status.illegal (s : Status) : Status := { s.cleared with err := true, ecode := .illegalCmd }

/-- A Host write was ignored because BUSY = 1 (10_state.md R37). -/
def Status.overrun (s : Status) : Status := { s with ovr := true }

/-- Complete without error (30_encoding.md R101). -/
def Status.completed (s : Status) : Status := { s with done := true, busy := false }

/-- Complete with an error (30_encoding.md R101, 60_exceptions.md R221). -/
def Status.rejected (c : ECode) (s : Status) : Status := { s with err := true, ecode := c, busy := false }

end Sys2Proof.Machine
end

