-- ==== Sys2Proof/WellFormed.lean ====
section
/-! DEFINITION. Which commands have an encoding. -/

namespace Sys2Proof

/-- LOADBLK's n is an integer in 0 .. 0xFFFFFF (30_encoding.md R93, R110); no other command has an operand. -/
def Instr.wellFormed : Instr → Bool
  | .loadblk n => decide (n ≤ 0xFFFFFF)
  | .init => true
  | .pad => true
  | .compress => true
  | .final => true
  | .digest => true
  | .hash => true

end Sys2Proof
end

