-- ==== Sys2Proof/Decode.lean ====
section
/-! DEFINITION. Decoding and encoding of the command word (30_encoding.md R90 to R100). -/

namespace Sys2Proof

/-- OP, bits 3:0 (30_encoding.md R90). -/
def opField (w : Word) : BitVec 4 := w.extractLsb' 0 4

/-- RSV, bits 7:4 (30_encoding.md R90). -/
def rsvField (w : Word) : BitVec 4 := w.extractLsb' 4 4

/-- IMM, bits 31:8 (30_encoding.md R90). -/
def immField (w : Word) : BitVec 24 := w.extractLsb' 8 24

/-- `legal(w)` (30_encoding.md R100). -/
def legal (w : Word) : Bool :=
  decide (1 ≤ (opField w).toNat) && decide ((opField w).toNat ≤ 7) && rsvField w == 0#4 &&
    (opField w == 3#4 || immField w == 0#24)

/-- Why a word is illegal (30_encoding.md R98). -/
inductive DecodeError where
  /-- OP = 0x0 or OP in 0x8 .. 0xF. -/
  | reservedOp (op : BitVec 4)
  /-- RSV is not 0. -/
  | rsvNonzero (rsv : BitVec 4)
  /-- IMM is not 0 and OP is not 3. -/
  | immNonzero (imm : BitVec 24)
  deriving DecidableEq, Repr

/-- A word of LOADBLK's form: RSV must be 0 (30_encoding.md R92). -/
def withRsvZero (w : Word) (i : Instr) : Except DecodeError Instr :=
  if rsvField w = 0#4 then .ok i else .error (.rsvNonzero (rsvField w))

/-- A word of the other forms: RSV and IMM must be 0 (30_encoding.md R92, R93). -/
def withImmZero (w : Word) (i : Instr) : Except DecodeError Instr :=
  if immField w = 0#24 then withRsvZero w i else .error (.immNonzero (immField w))

/-- The command a word stands for, or why it is illegal (30_encoding.md R91 to R94, R98, R103). -/
def decode (w : Word) : Except DecodeError Instr :=
  match (opField w).toNat with
  | 1 => withImmZero w .init
  | 2 => withImmZero w .pad
  | 3 => withRsvZero w (.loadblk (immField w).toNat)
  | 4 => withImmZero w .compress
  | 5 => withImmZero w .final
  | 6 => withImmZero w .digest
  | 7 => withImmZero w .hash
  | _ => .error (.reservedOp (opField w))

/-- The word of a command (30_encoding.md R94): fixed words, and (n << 8) | 0x03 for LOADBLK n. -/
def encode : Instr → Word
  | .init => 0x00000001#32
  | .pad => 0x00000002#32
  | .loadblk n => (BitVec.ofNat 32 n <<< 8) ||| 0x03#32
  | .compress => 0x00000004#32
  | .final => 0x00000005#32
  | .digest => 0x00000006#32
  | .hash => 0x00000007#32

/-- The instruction of a word as spec/opcode_table.json numbers its bits. A command is one 32-bit word
(30_encoding.md R90), written to CMD whole, so there is no byte order to undo. -/
def decodeTableWord (nbits w : Nat) : Option Instr :=
  (decode (BitVec.ofNat 32 (w % 2 ^ nbits))).toOption

end Sys2Proof
end

