-- ==== Sys2Proof/Machine/Operands.lean ====
section
/-! DEFINITION. The operands of the commands and their footprints (30_encoding.md R102 to R104). -/

namespace Sys2Proof.Machine

/-- B: MSG_BASE as an unbounded integer (30_encoding.md R103). -/
def base (s : State) : Nat := s.msgBase.toNat

/-- L: MSG_LEN as an unbounded integer (30_encoding.md R103). -/
def len (s : State) : Nat := s.msgLen.toNat

/-- The offset of block n of the buffer, `MSG_BASE + 64*n` (43_sequencer.md R184). -/
def blockBase (n : Nat) (s : State) : Nat := base s + 64 * n

/-- The MEM offsets a command reads, half open; (0, 0) for none (30_encoding.md R104). -/
def readRange : Instr → State → Nat × Nat
  | .init, _ => (0, 0)
  | .pad, _ => (0, 0)
  | .loadblk n, s => (blockBase n s, blockBase n s + 64)
  | .compress, _ => (0, 0)
  | .final, _ => (0, 0)
  | .digest, s => (base s, base s + len s)
  | .hash, s => (base s, base s + paddedLen (len s))

/-- The MEM offsets a command writes, half open; (0, 0) for none (30_encoding.md R104). -/
def writeRange : Instr → State → Nat × Nat
  | .init, _ => (0, 0)
  | .pad, s => (base s + len s, base s + paddedLen (len s))
  | .loadblk _, _ => (0, 0)
  | .compress, _ => (0, 0)
  | .final, _ => (0, 0)
  | .digest, _ => (0, 0)
  | .hash, s => (base s + len s, base s + paddedLen (len s))

/-- The end E of a command's footprint; none where there is no check (30_encoding.md R104, 60_exceptions.md R224). -/
def footEnd : Instr → State → Option Nat
  | .init, _ => none
  | .pad, s => some (base s + paddedLen (len s))
  | .loadblk n, s => some (blockBase n s + 64)
  | .compress, _ => none
  | .final, _ => none
  | .digest, s => some (base s + len s)
  | .hash, s => some (base s + paddedLen (len s))

/-- An offset in a half-open range. -/
def inRange (r : Nat × Nat) (off : Nat) : Bool := decide (r.1 ≤ off) && decide (off < r.2)

/-- An offset in a command's footprint: it reads it or writes it (30_encoding.md R104). -/
def inFootprint (i : Instr) (s : State) (off : Nat) : Bool :=
  inRange (readRange i s) off || inRange (writeRange i s) off

/-- UNALIGNED_LEN is DIGEST's alone (60_exceptions.md R223). -/
def unalignedLen : Instr → State → Bool
  | .init, _ => false
  | .pad, _ => false
  | .loadblk _, _ => false
  | .compress, _ => false
  | .final, _ => false
  | .digest, s => len s % 64 != 0
  | .hash, _ => false

/-- The footprint ends beyond MEM_SIZE (60_exceptions.md R224). -/
def outOfRange (i : Instr) (s : State) : Bool :=
  match footEnd i s with
  | some e => decide (s.params.memSize < e)
  | none => false

/-- The error a command completes with, in the spec's priority: UNALIGNED_LEN, then RANGE
(60_exceptions.md R225; ILLEGAL_CMD is decided at accept). -/
def errorOf (i : Instr) (s : State) : Option ECode :=
  if unalignedLen i s then some .unalignedLen else if outOfRange i s then some .range else none

end Sys2Proof.Machine
end

