-- ==== Sys2Proof/Machine/Ops.lean ====
section
/-! DEFINITION. The shared operations: MEM, accept, complete and its errors, block assembly, compression of the
block register, reset. -/

namespace Sys2Proof.Machine

/-! ### MEM (20_memory.md) -/

/-- The value of a byte, none where nothing has written it (20_memory.md R64). -/
def Mem.read? (m : Mem) (a : Nat) : Option Byte :=
  match m with
  | [] => none
  | c :: cs => if c.1 = a then some c.2 else Mem.read? cs a

/-- Write one byte, keeping the offsets strictly rising (20_memory.md R63, R64). -/
def Mem.write (m : Mem) (a : Nat) (b : Byte) : Mem :=
  match m with
  | [] => [(a, b)]
  | c :: cs =>
    if a < c.1 then (a, b) :: c :: cs else if c.1 = a then (a, b) :: cs else c :: Mem.write cs a b

/-- `MemWrite(a, n, s)`: the bytes of s at a, a+1, ..., one at a time (00_scope.md R13). -/
def Mem.writeBytes (m : Mem) (a : Nat) (bs : List Byte) : Mem :=
  match bs with
  | [] => m
  | b :: rest => Mem.writeBytes (Mem.write m a b) (a + 1) rest

/-- The bytes of a half-open range become unwritten (70_reset_and_hazards.md R250). -/
def Mem.unwrite (m : Mem) (r : Nat × Nat) : Mem := m.filter fun c => !inRange r c.1

/-- The canonical form: offsets strictly rising. An unlisted byte has no value, so no entry can repeat one. -/
def Mem.wf (m : Mem) : Bool := decide (m.Pairwise fun c d => c.1 < d.1)

/-- The lowest of the n offsets from a that nothing has written (20_memory.md R64). -/
def firstUnwritten (m : Mem) (a n : Nat) : Option Nat :=
  match n with
  | 0 => none
  | k + 1 => if (Mem.read? m a).isNone then some a else firstUnwritten m (a + 1) k

/-- A byte as the Core reads it. It is read only where `reading` has found it written; the 0 is never used. -/
def byteAt (m : Mem) (a : Nat) : Byte := (Mem.read? m a).getD 0#8

/-- `MemRead(a, n)` (00_scope.md R13), read only where `reading` has found the bytes written. -/
def bytesAt (m : Mem) (a n : Nat) : List Byte := (List.range n).map fun k => byteAt m (a + k)

/-- `block(a)` (43_sequencer.md R182). -/
def blockAt (m : Mem) (a : Nat) : Block := wordsAt (byteAt m) a

/-! ### Accept and complete (30_encoding.md R100, R101) -/

/-- Accept: the Host's write of w to CMD while BUSY = 0 (30_encoding.md R100). An illegal word leaves CMDL as it was
(log entry 7). -/
def accept (w : Word) (s : State) : State :=
  if legal w then { s with status := s.status.accepted, cmdl := w } else { s with status := s.status.illegal }

/-- A complete step without error (30_encoding.md R101). That CMDL keeps the completed word, where 10_state.md R35
leaves its value between commands unspecified, is the model's choice (log entry 7). -/
def finish (s : State) : State := { s with status := s.status.completed }

/-- A complete step with an error: the block's only exception entry, one write of STATUS (60_exceptions.md R221,
R229). There is no return: the next accept clears the record (`Status.cleared`, R230). CMDL is kept as in `finish`
(log entry 7). -/
def reject (c : ECode) (s : State) : State := { s with status := s.status.rejected c }

/-- Check before effect: the error of command i, if any, is recorded and nothing else happens
(60_exceptions.md R221, R225; 92_eei_decisions.md D14, D15). -/
def checked (i : Instr) (s : State) (effect : Result) : Result :=
  match errorOf i s with
  | some c => .next (reject c s)
  | none => effect

/-- The Core reads n bytes of m from a for command i: UNINIT_READ at the first one nothing has written
(20_memory.md R64). -/
def reading (i : Instr) (m : Mem) (a n : Nat) (effect : Result) : Result :=
  match firstUnwritten m a n with
  | some off => .fault (.uninitRead i off)
  | none => effect

/-- The command latched in CMDL (10_state.md R35, 30_encoding.md R101). -/
def fetch (s : State) : Option Instr := (decode s.cmdl).toOption

/-- The command the Core is running: the latched one while BUSY = 1 (10_state.md R21). -/
def running (s : State) : Option Instr := if s.status.busy then fetch s else none

/-! ### The parts of the commands' effects -/

/-- PAD's writes: the tail after the message, and PLEN (41_padding.md R126). -/
def padEffect (s : State) : State :=
  { s with
    mem := Mem.writeBytes s.mem (base s + len s) (padTail (len s))
    plen := BitVec.ofNat 32 (paddedLen (len s)) }

/-- `X <- block(a)` (43_sequencer.md R184). -/
def loadBlock (a : Nat) (s : State) : State := { s with x := blockAt s.mem a }

/-- `H <- IV` (43_sequencer.md R180). -/
def initH (s : State) : State := { s with h := iv }

/-- `H <- compress(H, X)`, leaving in VL and VR what the lanes end with (42_compression.md R155, R160;
log entry 6). -/
def compressEffect (s : State) : State :=
  { s with
    vl := (lanesAfter s.h s.x 64).1
    vr := (lanesAfter s.h s.x 64).2
    h := combine s.h (lanesAfter s.h s.x 64).1 (lanesAfter s.h s.x 64).2 }

/-- `DOUT[i] <- H[i]` (43_sequencer.md R186). -/
def latchOut (s : State) : State := { s with dout := s.h }

/-- The block loop of DIGEST and HASH: n blocks from offset a, in order (43_sequencer.md R188). -/
def digestBlocks (n a : Nat) (s : State) : State :=
  match n with
  | 0 => s
  | k + 1 => digestBlocks k (a + 64) (compressEffect (loadBlock a s))

/-- DIGEST's effect over n bytes from MSG_BASE (43_sequencer.md R188). -/
def digestEffect (n : Nat) (s : State) : State := latchOut (digestBlocks (n / 64) (base s) (initH s))

/-! ### Reset (70_reset_and_hazards.md R250) -/

/-- MEM after a reset: the write set of an aborted PAD or HASH becomes unwritten, the rest is unchanged. -/
def memAfterReset (s : State) : Mem :=
  match running s with
  | some i => Mem.unwrite s.mem (writeRange i s)
  | none => s.mem

/-- Reset: every register takes its value of 10_state.md R36; MEM as R250 says; what lies outside the block (the
Host's pending accesses and variables, the parameters) stays. -/
def resetBlock (s : State) : State :=
  { State.resetWith s.params with
    mem := memAfterReset s
    inputs := s.inputs
    turns := s.turns
    replies := s.replies
    draws := s.draws }

/-! ### Which agent moves (20_memory.md R73, 60_exceptions.md R232) -/

/-- Both the Host side and the Core could move. -/
def contended (s : State) : Bool := s.status.busy && !s.inputs.isEmpty

/-- Who moves next; none when nothing can (70_reset_and_hazards.md R264). Where both could, the next entry of
`turns` says, and the Core when none is left, so only finitely many accesses precede a completion (log entry 8). -/
def nextAgent (s : State) : Option Agent :=
  if s.status.busy then
    match s.inputs, s.turns with
    | _ :: _, .host :: _ => some .host
    | _, _ => some .core
  else if s.inputs.isEmpty then none else some .host

/-- A contended choice uses up one entry of `turns`. -/
def takeTurn (s : State) : State := if contended s then { s with turns := s.turns.tail } else s

/-- The word w latched as an accepted command whose complete step comes next (log entry 19). -/
def latchWord (w : Word) (s : State) : State :=
  { s with
    cmdl := w
    status := s.status.accepted
    turns := if s.inputs.isEmpty then s.turns else .core :: s.turns }

end Sys2Proof.Machine
end

