-- ==== Sys2Proof/Machine/CompressEngine.lean ====
section
/-! DEFINITION. The command of the compression engine: COMPRESS (42_compression.md). -/

namespace Sys2Proof.Machine

/-- COMPRESS (42_compression.md R160): H is folded with X, all four words together; it has no error. -/
def execCompress (s : State) : Result := .next (finish (compressEffect s))

end Sys2Proof.Machine
end

