-- ==== Sys2Proof/Machine/PadEngine.lean ====
section
/-! DEFINITION. The command of the padding/length encoder: PAD (41_padding.md). -/

namespace Sys2Proof.Machine

/-- PAD (41_padding.md R126): the tail after the message in MEM and PLEN, or RANGE. -/
def execPad (s : State) : Result := checked .pad s (.next (finish (padEffect s)))

end Sys2Proof.Machine
end

