-- ==== Sys2Proof/Machine/Sequencer.lean ====
section
/-! DEFINITION. The commands of the block sequencer: INIT, LOADBLK, FINAL, DIGEST, HASH (43_sequencer.md). -/

namespace Sys2Proof.Machine

/-- INIT (43_sequencer.md R181): H takes IV. -/
def execInit (s : State) : Result := .next (finish (initH s))

/-- LOADBLK n (43_sequencer.md R184): X takes the block at MSG_BASE + 64 n, or RANGE, or the fault UNINIT_READ. -/
def execLoadblk (n : Nat) (s : State) : Result :=
  checked (.loadblk n) s
    (reading (.loadblk n) s.mem (blockBase n s) 64 (.next (finish (loadBlock (blockBase n s) s))))

/-- FINAL (43_sequencer.md R186): DOUT takes H. -/
def execFinal (s : State) : Result := .next (finish (latchOut s))

/-- DIGEST (43_sequencer.md R188): the blocks of the buffer folded from IV, or UNALIGNED_LEN, or RANGE, or the fault
UNINIT_READ. -/
def execDigest (s : State) : Result :=
  checked .digest s (reading .digest s.mem (base s) (len s) (.next (finish (digestEffect (len s) s))))

/-- HASH (43_sequencer.md R192): PAD's writes, then the digest of the padded buffer, or RANGE, or the fault
UNINIT_READ on a message byte. -/
def execHash (s : State) : Result :=
  checked .hash s
    (reading .hash (padEffect s).mem (base s) (paddedLen (len s))
      (.next (finish (digestEffect (paddedLen (len s)) (padEffect s)))))

end Sys2Proof.Machine
end

