-- ==== Sys2Proof/Machine/Dispatch.lean ====
section
/-! DEFINITION. The complete step of each command (30_encoding.md R101). -/

namespace Sys2Proof.Machine

/-- The Core's complete step of command i: its whole effect with its STATUS update (30_encoding.md R101). -/
def exec (i : Instr) (s : State) : Host.Outcome State Fault Refusal :=
  match i with
  | .init => Sys2Proof.Machine.execInit s
  | .pad => Sys2Proof.Machine.execPad s
  | .loadblk n => Sys2Proof.Machine.execLoadblk n s
  | .compress => Sys2Proof.Machine.execCompress s
  | .final => Sys2Proof.Machine.execFinal s
  | .digest => Sys2Proof.Machine.execDigest s
  | .hash => Sys2Proof.Machine.execHash s

end Sys2Proof.Machine
end

