-- ==== Sys2Proof/Machine/HostPort.lean ====
section
/-! DEFINITION. The Host's accesses to the register window and to MEM, and reset (10_state.md R37, R38;
20_memory.md R61 to R79; 30_encoding.md R95 to R97, R112). -/

namespace Sys2Proof.Machine

/-! ### The register map (30_encoding.md R95 to R97) -/

/-- The register of a word slot, `offset[6:2]` (30_encoding.md R95, R96). -/
def slotReg (k : Nat) : Reg :=
  if k = 0 then .cmd
  else if k = 1 then .status
  else if k = 2 then .msgBase
  else if k = 3 then .msgLen
  else if k = 4 then .plen
  else if k < 8 then .reserved
  else if k < 12 then .h (Fin.ofNat 4 (k - 8))
  else if k < 16 then .dout (Fin.ofNat 4 (k - 12))
  else .x (Fin.ofNat 16 (k - 16))

/-- The offset of a register (30_encoding.md R95); of the reserved ones, the first. -/
def regOffset : Reg → Nat
  | .cmd => 0x00
  | .status => 0x04
  | .msgBase => 0x08
  | .msgLen => 0x0C
  | .plen => 0x10
  | .reserved => 0x14
  | .h i => 0x20 + 4 * i
  | .dout i => 0x30 + 4 * i
  | .x i => 0x40 + 4 * i

/-- The register a Host access reaches: none for an access outside the window, misaligned, or not 32 bits wide
(30_encoding.md R96). -/
def regAt (p : Params) (addr width : Nat) : Option Reg :=
  if p.regBase ≤ addr ∧ addr < p.regBase + 0x80 ∧ (addr - p.regBase) % 4 = 0 ∧ width = 32 then
    some (slotReg ((addr - p.regBase) / 4))
  else none

/-! ### Register reads (10_state.md R38) -/

/-- What a register reads as while BUSY = 0 (10_state.md R23 to R32, 30_encoding.md R97). -/
def regValue (s : State) : Reg → Word
  | .cmd => 0#32
  | .status => s.status.toWord
  | .msgBase => s.msgBase
  | .msgLen => s.msgLen
  | .plen => s.plen
  | .reserved => 0#32
  | .h i => s.h[i]
  | .dout i => s.dout[i]
  | .x i => s.x[i]

/-- The registers that read exactly at every time: STATUS, CMD, the reserved offsets (10_state.md R38). -/
def readsExactly : Reg → Bool
  | .cmd => true
  | .status => true
  | .reserved => true
  | .msgBase => false
  | .msgLen => false
  | .plen => false
  | .h _ => false
  | .dout _ => false
  | .x _ => false

/-- A Host variable takes what a read returned (30_encoding.md R111). -/
def addReply (r : Reply) (s : State) : State := { s with replies := r :: s.replies }

/-- A free draw is taken (10_state.md R38). -/
def countDraw (s : State) : State := { s with draws := s.draws + 1 }

/-- A Host read of register r (10_state.md R38): while BUSY = 1, a free draw but for STATUS, CMD and reserved. -/
def readReg (r : Reg) (s : State) : State :=
  if s.status.busy && !readsExactly r then countDraw (addReply (.word (Config.freeWord s.draws)) s)
  else addReply (.word (regValue s r)) s

/-- A Host register read (20_memory.md R67, 30_encoding.md R96). -/
def hostRead (addr width : Nat) (s : State) : Result :=
  match regAt s.params addr width with
  | some r => .next (readReg r s)
  | none => .fault (.busError addr width)

/-- POLL: one read of STATUS, repeated while BUSY = 1 (30_encoding.md R112). -/
def hostPoll (s : State) : State :=
  if s.status.busy then { readReg .status s with inputs := .poll :: s.inputs } else readReg .status s

/-! ### Register writes (10_state.md R24 to R32, R37) -/

/-- A write that BUSY = 1 makes the block ignore sets OVR (10_state.md R37). -/
def unlessBusy (s : State) (effect : State) : State :=
  if s.status.busy then { s with status := s.status.overrun } else effect

/-- A Host write of v to register r (10_state.md R23 to R32, R37; 30_encoding.md R97, R100). -/
def writeReg (v : Word) (s : State) : Reg → State
  | .cmd => unlessBusy s (accept v s)
  | .status => s
  | .msgBase => unlessBusy s { s with msgBase := v }
  | .msgLen => unlessBusy s { s with msgLen := v }
  | .plen => s
  | .reserved => s
  | .h i => unlessBusy s { s with h := s.h.set i v }
  | .dout _ => s
  | .x i => unlessBusy s { s with x := s.x.set i v }

/-- A Host register write (20_memory.md R67, 30_encoding.md R96). -/
def hostWrite (addr width : Nat) (v : Word) (s : State) : Result :=
  match regAt s.params addr width with
  | some r => .next (writeReg v s r)
  | none => .fault (.busError addr width)

/-! ### MEM accesses (20_memory.md R63, R64, R79) -/

/-- What a Host read finds in a byte: its value, or a free draw where nothing has written it (20_memory.md R64). -/
def seenByte (n : Nat) (b : Option Byte) : Byte := b.getD (Config.freeByte n)

/-- The byte at off once command i has completed, for off in its write set: the tail byte, or the byte as it was
when the command is rejected (20_memory.md R79, 41_padding.md R126, 60_exceptions.md R221). -/
def byteAfter (i : Instr) (s : State) (off : Nat) : Option Byte :=
  if (errorOf i s).isNone then (padTail (len s))[off - (writeRange i s).1]? else Mem.read? s.mem off

/-- The running command writes off (20_memory.md R79). -/
def beingWritten (s : State) (off : Nat) : Option Instr :=
  (running s).filter fun i => inRange (writeRange i s) off

/-- The running command's footprint holds off (20_memory.md R79). -/
def inRunningFootprint (s : State) (off : Nat) : Bool :=
  match running s with
  | some i => inFootprint i s off
  | none => false

/-- A Host read of a MEM byte (20_memory.md R64, R79): of a byte the running command writes, the old value or the
new one by a free choice; of another, its value. -/
def readMem (off : Nat) (s : State) : State :=
  match beingWritten s off with
  | some i =>
    countDraw (addReply
      (.byte (seenByte s.draws (if Config.freeBit s.draws then byteAfter i s off else Mem.read? s.mem off))) s)
  | none =>
    match Mem.read? s.mem off with
    | some b => addReply (.byte b) s
    | none => countDraw (addReply (.byte (Config.freeByte s.draws)) s)

/-- A Host MEM read (20_memory.md R63). MEM has no byte at or beyond MEM_SIZE (log entry 12). -/
def hostMemRead (off : Nat) (s : State) : Result :=
  if off < s.params.memSize then .next (readMem off s) else .fault (.hostMemOutside off)

/-- A Host MEM write (20_memory.md R63, R79): into the running command's footprint it is a race. -/
def hostMemWrite (off : Nat) (b : Byte) (s : State) : Result :=
  if off < s.params.memSize then
    if inRunningFootprint s off then .fault (.hostMemRace off)
    else .next { s with mem := Mem.write s.mem off b }
  else .fault (.hostMemOutside off)

/-! ### One access -/

/-- One access from outside (20_memory.md R73, 70_reset_and_hazards.md R250). -/
def access (e : Input) (s : State) : Result :=
  match e with
  | .regRead addr width => hostRead addr width s
  | .regWrite addr width v => hostWrite addr width v s
  | .memRead off => hostMemRead off s
  | .memWrite off b => hostMemWrite off b s
  | .poll => .next (hostPoll s)
  | .reset => .next (resetBlock s)

/-- The oldest pending access takes effect. -/
def hostStep (s : State) : Result :=
  match s.inputs with
  | [] => .next s
  | e :: rest => access e { s with inputs := rest }

end Sys2Proof.Machine
end

