-- ==== Sys2Proof/Machine/Step.lean ====
section
/-! DEFINITION. One step of the machine: a Host access or the Core's complete step, in one interleaving
(20_memory.md R73). -/

namespace Sys2Proof.Machine

/-- The Core's complete step of the latched command (30_encoding.md R101). -/
def coreStep (s : State) : Result :=
  match fetch s with
  | some i => exec i s
  | none => .refused (.illegalLatch s.cmdl)

/-- One step: the agent that moves, moves; where none can, the run has ended and nothing changes
(70_reset_and_hazards.md R264, 60_exceptions.md R239). -/
def step (s : State) : Host.Outcome State Fault Refusal :=
  match nextAgent s with
  | some .core => coreStep (takeTurn s)
  | some .host => hostStep (takeTurn s)
  | none => .next s

/-- s with the word w accepted and latched in CMDL, and the Core to move: the very next step completes it. -/
def State.withFetchWord (s : State) (nbits w : Nat) : State := latchWord (BitVec.ofNat 32 (w % 2 ^ nbits)) s

end Sys2Proof.Machine
end

