-- ==== Sys2Proof/Machine/ReferenceFsm.lean ====
section
/-! DEFINITION. The reference sequencer of 43_sequencer.md R200: one legal, non-normative implementation of the
complete step. `step` does not use it; it moves STEP, BLK and the FSM state, which the atomic step leaves alone
(10_state.md R35; log entries 7 and 21). -/

namespace Sys2Proof.Machine

/-- The command's first state after CHECK (43_sequencer.md R200). -/
def firstState : Instr → Fsm
  | .init => .initw
  | .pad => .padw 0
  | .loadblk _ => .load 0
  | .compress => .linit
  | .final => .latch
  | .digest => .ivld
  | .hash => .padw 0

/-- How many blocks DIGEST and HASH process (43_sequencer.md R188, R192). -/
def blockCount (i : Instr) (s : State) : Nat :=
  match i with
  | .hash => paddedLen (len s) / 64
  | .init | .pad | .loadblk _ | .compress | .final | .digest => len s / 64

/-- CHECK: the errors of the latched command, in order (43_sequencer.md R200, 60_exceptions.md R225). That BLK takes
LOADBLK's n here, where the table says only "for LOADBLK, k = n" beside LOAD, is the model's choice (log entry 21). -/
def fsmCheck (i : Instr) (s : State) : State :=
  match errorOf i s, i with
  | some _, _ => { s with fsm := .errset }
  | none, .loadblk n => { s with fsm := .load 0, blkCtr := n }
  | none, .init | none, .pad | none, .compress | none, .final | none, .digest | none, .hash =>
    { s with fsm := firstState i }

/-- ERRSET: ERR and ECODE are written and BUSY cleared (43_sequencer.md R200). -/
def fsmErrset (i : Instr) (s : State) : State :=
  match errorOf i s with
  | some c => { reject c s with fsm := .idle }
  | none => { s with fsm := .idle }

/-- The end of PADW: HASH goes on to IVLD; PAD is complete, in IDLE (43_sequencer.md R200; log entry 21). -/
def afterPadw (i : Instr) (s : State) : State :=
  match i with
  | .hash => { s with fsm := .ivld }
  | .init | .pad | .loadblk _ | .compress | .final | .digest => { finish s with fsm := .idle }

/-- PADW: tail byte k is written; with the last one, PLEN (43_sequencer.md R200, 41_padding.md R126; that PLEN goes
with the last byte is log entry 21). -/
def fsmPadw (i : Instr) (k : Nat) (s : State) : State :=
  let t : State := { s with mem := Mem.write s.mem (base s + len s + k) ((padTail (len s)).getD k 0#8) }
  if k + 1 < (padTail (len s)).length then { t with fsm := .padw (k + 1) }
  else afterPadw i { t with plen := BitVec.ofNat 32 (paddedLen (len s)) }

/-- Byte k of a block goes into its place in X: the lowest of a word first, the others above it
(20_memory.md R66). -/
def assembleByte (k : Nat) (b : Byte) (x : Block) : Block :=
  x.set (Fin.ofNat 16 (k / 4))
    (if k % 4 = 0 then b.setWidth 32
    else x[Fin.ofNat 16 (k / 4)] ||| (b.setWidth 32 <<< (8 * (k % 4))))

/-- The state after LOAD: DONE for LOADBLK, LINIT otherwise (43_sequencer.md R200). -/
def afterLoad : Instr → Fsm
  | .loadblk _ => .done
  | .init | .pad | .compress | .final | .digest | .hash => .linit

/-- LOAD: byte k of the block at MSG_BASE + 64 BLK is read into X (43_sequencer.md R200). -/
def fsmLoad (i : Instr) (k : Nat) (s : State) : Result :=
  let a := blockBase s.blkCtr s + k
  reading i s.mem a 1
    (.next { s with
      x := assembleByte k (byteAt s.mem a) s.x
      fsm := if k + 1 < 64 then .load (k + 1) else afterLoad i })

/-- RND: one RFstep of each lane at STEP (43_sequencer.md R200). -/
def fsmRnd (s : State) : State :=
  { s with
    vl := rfStep .left s.stepCtr s.vl s.x
    vr := rfStep .right s.stepCtr s.vr s.x
    stepCtr := s.stepCtr + 1
    fsm := if s.stepCtr + 1 < 64 then .rnd else .comb }

/-- COMB: the combination, then DONE for COMPRESS, the next block or LATCH otherwise (43_sequencer.md R200). -/
def fsmComb (i : Instr) (s : State) : State :=
  match i with
  | .compress => { s with h := combine s.h s.vl s.vr, fsm := .done }
  | .init | .pad | .loadblk _ | .final | .digest | .hash =>
    { s with
      h := combine s.h s.vl s.vr
      blkCtr := s.blkCtr + 1
      fsm := if s.blkCtr + 1 < blockCount i s then .load 0 else .latch }

/-- One transition of the reference sequencer running command i (43_sequencer.md R200). -/
def fsmMove (i : Instr) (s : State) : Result :=
  match s.fsm with
  | .idle => .next (if s.status.busy then { s with fsm := .check } else s)
  | .check => .next (fsmCheck i s)
  | .errset => .next (fsmErrset i s)
  | .padw k => .next (fsmPadw i k s)
  | .initw => .next { initH s with fsm := .done }
  | .ivld => .next { initH s with blkCtr := 0, fsm := if 0 < blockCount i s then .load 0 else .latch }
  | .load k => fsmLoad i k s
  | .linit => .next { s with vl := s.h, vr := s.h, stepCtr := 0, fsm := .rnd }
  | .rnd => .next (fsmRnd s)
  | .comb => .next (fsmComb i s)
  | .latch => .next { latchOut s with fsm := .done }
  | .done => .next { finish s with fsm := .idle }

/-- n transitions, stopping at the first fault. -/
def fsmRun (i : Instr) (n : Nat) (s : State) : Result :=
  match n with
  | 0 => .next s
  | k + 1 =>
    match fsmMove i s with
    | .next t => fsmRun i k t
    | .fault r => .fault r
    | .refused r => .refused r

end Sys2Proof.Machine
end

