-- ==== Sys2Proof/Safety.lean ====
section
/-! DEFINITION. What claims are stated in: the invariant of every reachable state, the end of a run, what the Host
can see of a state, the bound on a run. -/

namespace Sys2Proof.Machine

/-- The invariants of STATUS (10_state.md R26): if BUSY = 1 then DONE = 0, ERR = 0 and ECODE = 0; DONE and ERR are
never both 1; ERR = 1 exactly when ECODE is not 0. -/
def Status.coherent (s : Status) : Bool :=
  (!s.busy || (!s.done && !s.err && s.ecode == .none)) && !(s.done && s.err) && (s.err == (s.ecode != .none))

/-- The invariant of the machine: parameters within the bounds of 00_scope.md R8; MEM canonical and within
MEM_SIZE (20_memory.md R60); STATUS coherent (10_state.md R26); a legal word latched while BUSY = 1
(30_encoding.md R101); PLEN a multiple of 64 (10_state.md R29; 0 after reset) that fits in MEM; the reference
sequencer in IDLE (60_exceptions.md R239). -/
structure State.Inv (s : State) : Prop where
  params : s.params.ok = true
  memForm : Mem.wf s.mem = true
  memInside : ∀ c ∈ s.mem, c.1 < s.params.memSize
  status : s.status.coherent = true
  latch : s.status.busy = true → legal s.cmdl = true
  plenAligned : s.plen.toNat % 64 = 0
  plenFits : s.plen.toNat ≤ s.params.memSize
  fsm : s.fsm = .idle

/-- A run has ended (70_reset_and_hazards.md R264): the Host has no further step and BUSY = 0. -/
def State.ended (s : State) : Bool := s.inputs.isEmpty && !s.status.busy

/-- s without what no Host access can read: the lane registers, the sequencer's hidden state, and CMDL while no
command is latched (10_state.md R33 to R35). -/
def State.visible (s : State) : State :=
  { s with
    vl := #v[0#32, 0#32, 0#32, 0#32]
    vr := #v[0#32, 0#32, 0#32, 0#32]
    cmdl := if s.status.busy then s.cmdl else 0#32
    stepCtr := 0
    blkCtr := 0
    fsm := .idle }

/-- A step's answer seen through f; a fault and a refusal are seen whole. -/
def seenThrough (f : State → State) : Result → Result
  | .next s => .next (f s)
  | .fault r => .fault r
  | .refused r => .refused r

/-- s without what the reference sequencer moves and the atomic step does not: STEP, BLK, the FSM state. -/
def State.apart (s : State) : State := { s with stepCtr := 0, blkCtr := 0, fsm := .idle }

/-- A bound on the steps left before the run ends or stops. -/
def State.stepsLeft (s : State) : Nat := 2 * s.inputs.length + (if s.status.busy then 1 else 0) + s.turns.length

/-- Every MEM byte of [a, a + n) has been written (20_memory.md R64). -/
def Written (m : Mem) (a n : Nat) : Prop := ∀ off, a ≤ off → off < a + n → (Mem.read? m off).isSome = true

/-- Commands one after the other, each run to completion. -/
def execAll (is : List Instr) (s : State) : Result :=
  match is with
  | [] => .next s
  | i :: rest =>
    match exec i s with
    | .next t => execAll rest t
    | .fault r => .fault r
    | .refused r => .refused r

/-- The Host's own way through a buffer of N blocks from block k (43_sequencer.md R194). -/
def blockCommands (k N : Nat) : List Instr :=
  match N with
  | 0 => []
  | n + 1 => .loadblk k :: .compress :: blockCommands (k + 1) n

/-- One lane by itself, n steps (42_compression.md R151). -/
def laneAlone (l : Lane) (v : Quad) (x : Block) : Nat → Quad
  | 0 => v
  | j + 1 => rfStep l j (laneAlone l v x j) x

end Sys2Proof.Machine
end

