-- ==== Sys2Proof/Certificates/Slice0/Obligations.lean ====
section
/-! DEFINITION. The statements for the provers, from the numbered rules of spec/. Where a statement gives a whole next
state, what it leaves unchanged includes the hidden state (VL, VR, CMDL, STEP, BLK, the FSM state), whose values
between commands the spec leaves unspecified (10_state.md R33, R35): that the model keeps it is its own choice (log
entries 6 and 7), for which no rule is cited. -/

open Sys2Proof Sys2Proof.Machine

/-! ### The command word -/

/-- The complete set of legal command words, and the command each stands for. The list is an inference the spec
marks as its own (30_encoding.md section 1: "The complete set of legal command words"). -/
def Obligations.CommandWordsAreExactly : Prop :=
  (∀ (w : Word) (i : Instr), decode w = .ok i ↔
    match i with
    | .init => w = 0x00000001#32
    | .pad => w = 0x00000002#32
    | .loadblk n => n ≤ 0xFFFFFF ∧ w = (BitVec.ofNat 32 n <<< 8) ||| 0x03#32
    | .compress => w = 0x00000004#32
    | .final => w = 0x00000005#32
    | .digest => w = 0x00000006#32
    | .hash => w = 0x00000007#32) ∧
  ∀ w : Word, legal w = true ↔ ∃ i, decode w = .ok i

/-- Every well-formed command survives encoding and decoding, LOADBLK with every n. -/
def Obligations.DecodeEncodeRoundTrip : Prop :=
  ∀ i : Instr, i.wellFormed = true → decode (encode i) = .ok i

/-- 30_encoding.md R98 and 60_exceptions.md R222: which words are illegal, and that accept rejects them with
ILLEGAL_CMD, changing STATUS alone. -/
def Obligations.IllegalWordsRejectedAtAccept : Prop :=
  (∀ w : Word, legal w = false ↔
    opField w = 0#4 ∨ 8 ≤ (opField w).toNat ∨ rsvField w ≠ 0#4 ∨
      (opField w ≠ 3#4 ∧ immField w ≠ 0#24)) ∧
  ∀ (w : Word) (s : State), legal w = false → s.status.busy = false →
    access (.regWrite (s.params.regBase + 0x00) 32 w) s =
      .next { s with status := { busy := false, done := false, err := true, ovr := false, ecode := .illegalCmd } }

/-- 30_encoding.md R100: a Host write to CMD. -/
def Obligations.AcceptOfCommandWord : Prop :=
  ∀ (w : Word) (s : State),
    access (.regWrite (s.params.regBase + 0x00) 32 w) s =
      .next
        (if s.status.busy = true then { s with status := { s.status with ovr := true } }
        else if 1 ≤ (opField w).toNat ∧ (opField w).toNat ≤ 7 ∧ rsvField w = 0#4 ∧
            (opField w = 3#4 ∨ immField w = 0#24) then
          { s with
            cmdl := w
            status := { busy := true, done := false, err := false, ovr := false, ecode := .none } }
        else
          { s with status := { busy := false, done := false, err := true, ovr := false, ecode := .illegalCmd } })

/-- A few words of 95_test_vectors.md V-ENC-1. -/
def Obligations.VectorWordsDecode : Prop :=
  decode 0x00000001#32 = .ok .init ∧ decode 0x00000002#32 = .ok .pad ∧ decode 0x00001003#32 = .ok (.loadblk 16) ∧
    decode 0xFFFFFF03#32 = .ok (.loadblk 16777215) ∧ decode 0x00000004#32 = .ok .compress ∧
    decode 0x00000005#32 = .ok .final ∧ decode 0x00000006#32 = .ok .digest ∧ decode 0x00000007#32 = .ok .hash ∧
    decode 0x00000000#32 = .error (.reservedOp 0#4) ∧ decode 0x00000013#32 = .error (.rsvNonzero 1#4) ∧
    decode 0x80000007#32 = .error (.immNonzero 0x800000#24)

/-! ### Which agent steps, and what it runs -/

/-- The Core's step is the complete step of the command latched in CMDL. The use of `turns` is the model's choice
(log entry 8). -/
def Obligations.StepRunsLatchedCommand : Prop :=
  ∀ (s : State) (i : Instr), s.status.busy = true → decode s.cmdl = .ok i →
    (s.inputs = [] ∨ s.turns.head? ≠ some .host) →
    step s = exec i { s with turns := if s.inputs = [] then s.turns else s.turns.tail }

/-- A word placed where the Core finds its next command is the command the very next step completes. The placing is
the model's own (log entry 19). -/
def Obligations.PlacedWordRunsNext : Prop :=
  ∀ (s : State) (i : Instr), i.wellFormed = true →
    step (s.withFetchWord 32 (encode i).toNat) =
      exec i
        { s with
          cmdl := encode i
          status := { busy := true, done := false, err := false, ovr := false, ecode := .none } }

/-- Host accesses and complete steps in one interleaving: while BUSY = 1 either agent may come first, as `turns`
says, and the Core when it says nothing (the model's choice, log entry 8); while BUSY = 0 the Host's next access;
with nothing left, nothing changes. -/
def Obligations.StepInterleavesHostAndCore : Prop :=
  (∀ (s : State) (e : Input) (rest : List Input) (ts : List Agent),
    s.status.busy = true → s.inputs = e :: rest →
      step { s with turns := .host :: ts } = access e { s with inputs := rest, turns := ts } ∧
      step { s with turns := .core :: ts } = coreStep { s with turns := ts } ∧
      step { s with turns := [] } = coreStep { s with turns := [] }) ∧
  (∀ (s : State) (e : Input) (rest : List Input), s.status.busy = false → s.inputs = e :: rest →
    step s = access e { s with inputs := rest }) ∧
  ∀ s : State, s.ended = true → step s = .next s

/-- RUN of a command from an idle block: the CMD write latches it, and the next step is the command's complete step
over every earlier write of the Host (it may fault, where the command does). That the Core moves before the POLL
rests on `turns` being empty (log entry 8; with the Host first in `turns` the second step is the POLL). -/
def Obligations.RunStatementRunsCommand : Prop :=
  ∀ (s : State) (i : Instr) (rest : List Input), i.wellFormed = true → s.status.busy = false → s.turns = [] →
    s.inputs = [.regWrite (s.params.regBase + 0x00) 32 (encode i), .poll] ++ rest →
    ∃ u : State,
      step s = .next u ∧
      u = { s with
        cmdl := encode i
        status := { busy := true, done := false, err := false, ovr := false, ecode := .none }
        inputs := .poll :: rest } ∧
      step u = exec i u

/-- POLL (30_encoding.md section 6) reads STATUS and repeats while BUSY = 1; it ends with a STATUS value whose BUSY
bit is 0. That the repetition is a pending access put back is the model's form of it (log entry 9). -/
def Obligations.PollWaitsForIdle : Prop :=
  ∀ s : State,
    access .poll s =
      .next
        (if s.status.busy = true then
          { s with replies := .word s.status.toWord :: s.replies, inputs := .poll :: s.inputs }
        else { s with replies := .word s.status.toWord :: s.replies }) ∧
    (s.status.busy = false ↔ s.status.toWord.getLsbD 0 = false)

/-- Every step but the last of a run brings its end nearer: a command completes after finitely many steps, and a
finite list of accesses ends. It rests on the model's own form of weak fairness (log entry 8). -/
def Obligations.EveryRunIsFinite : Prop :=
  ∀ s t : State, s.ended = false → step s = .next t → t.stepsLeft < s.stepsLeft

/-! ### The register window -/

/-- 30_encoding.md R96: an access reaches the slot `offset[6:2]` of the window, and is a bus error when it is
outside the window, misaligned, or not 32 bits wide. -/
def Obligations.WindowAccessDecoded : Prop :=
  ∀ (s : State) (addr width : Nat) (v : Word),
    if s.params.regBase ≤ addr ∧ addr < s.params.regBase + 0x80 ∧ (addr - s.params.regBase) % 4 = 0 ∧
        width = 32 then
      ∃ r : Reg,
        [Reg.cmd, .status, .msgBase, .msgLen, .plen, .reserved, .reserved, .reserved, .h 0, .h 1, .h 2, .h 3, .dout 0,
          .dout 1, .dout 2, .dout 3, .x 0, .x 1, .x 2, .x 3, .x 4, .x 5, .x 6, .x 7, .x 8, .x 9, .x 10, .x 11, .x 12,
          .x 13, .x 14, .x 15][(addr - s.params.regBase) / 4]? = some r ∧
        access (.regRead addr width) s = .next (readReg r s) ∧
        access (.regWrite addr width v) s = .next (writeReg v s r)
    else
      access (.regRead addr width) s = .fault (.busError addr width) ∧
      access (.regWrite addr width v) s = .fault (.busError addr width)

/-- 10_state.md R38: what a Host register read returns, while BUSY = 1 and while BUSY = 0. -/
def Obligations.RegisterReadsReturn : Prop :=
  ∀ (s : State) (i : Fin 4) (k : Fin 16),
    let reads (off : Nat) (w : Word) : Prop :=
      access (.regRead (s.params.regBase + off) 32) s = .next { s with replies := .word w :: s.replies }
    let draws (off : Nat) : Prop :=
      access (.regRead (s.params.regBase + off) 32) s =
        .next { s with replies := .word (Config.freeWord s.draws) :: s.replies, draws := s.draws + 1 }
    (reads 0x00 0#32 ∧ reads 0x04 s.status.toWord ∧ reads 0x14 0#32 ∧ reads 0x18 0#32 ∧ reads 0x1C 0#32) ∧
    if s.status.busy = true then
      draws 0x08 ∧ draws 0x0C ∧ draws 0x10 ∧ draws (0x20 + 4 * i) ∧ draws (0x30 + 4 * i) ∧
        draws (0x40 + 4 * k)
    else
      reads 0x08 s.msgBase ∧ reads 0x0C s.msgLen ∧ reads 0x10 s.plen ∧ reads (0x20 + 4 * i) s.h[i] ∧
        reads (0x30 + 4 * i) s.dout[i] ∧ reads (0x40 + 4 * k) s.x[k]

/-- 10_state.md R37: while BUSY = 1 a write to CMD, MSG_BASE, MSG_LEN, H or X is ignored and sets OVR; a write to
STATUS, PLEN, DOUT or a reserved offset is ignored and sets nothing, busy or not. -/
def Obligations.IgnoredRegisterWrites : Prop :=
  ∀ (s : State) (v : Word) (i : Fin 4) (k : Fin 16),
    (s.status.busy = true →
      ∀ off ∈ [0x00, 0x08, 0x0C, 0x20 + 4 * i.val, 0x40 + 4 * k.val],
        access (.regWrite (s.params.regBase + off) 32 v) s =
          .next { s with status := { s.status with ovr := true } }) ∧
    ∀ off ∈ [0x04, 0x10, 0x30 + 4 * i.val, 0x14, 0x18, 0x1C],
      access (.regWrite (s.params.regBase + off) 32 v) s = .next s

/-- While BUSY = 0 a write to MSG_BASE, MSG_LEN, H[i] or X[i] writes that register alone, with every value. -/
def Obligations.IdleRegisterWrites : Prop :=
  ∀ (s : State) (v : Word) (i : Fin 4) (k : Fin 16), s.status.busy = false →
    access (.regWrite (s.params.regBase + 0x08) 32 v) s = .next { s with msgBase := v } ∧
    access (.regWrite (s.params.regBase + 0x0C) 32 v) s = .next { s with msgLen := v } ∧
    (∃ h : Quad, access (.regWrite (s.params.regBase + (0x20 + 4 * i)) 32 v) s = .next { s with h := h } ∧
      ∀ j : Fin 4, h[j] = if j = i then v else s.h[j]) ∧
    ∃ x : Block, access (.regWrite (s.params.regBase + (0x40 + 4 * k)) 32 v) s = .next { s with x := x } ∧
      ∀ j : Fin 16, x[j] = if j = k then v else s.x[j]

/-- 30_encoding.md R97: the reserved offsets read 0 and ignore writes, without OVR, busy or not. -/
def Obligations.ReservedOffsetsAreInert : Prop :=
  ∀ (s : State) (v : Word), ∀ off ∈ [0x14, 0x18, 0x1C],
    access (.regRead (s.params.regBase + off) 32) s = .next { s with replies := .word 0#32 :: s.replies } ∧
    access (.regWrite (s.params.regBase + off) 32 v) s = .next s

/-- The places of the STATUS fields in the word, and its reserved bits. -/
def Obligations.StatusWordLayout : Prop :=
  ∀ s : Status,
    s.toWord.getLsbD 0 = s.busy ∧ s.toWord.getLsbD 1 = s.done ∧ s.toWord.getLsbD 2 = s.err ∧
      s.toWord.getLsbD 3 = s.ovr ∧
      (s.toWord.extractLsb' 4 4).toNat =
        (match s.ecode with
        | .none => 0
        | .illegalCmd => 1
        | .unalignedLen => 2
        | .range => 3) ∧
      s.toWord.extractLsb' 8 24 = 0#24

/-- Reads have no side effects: they change the Host's variables and the count of free draws alone. -/
def Obligations.HostReadsChangeNothing : Prop :=
  ∀ (s t : State) (e : Input), (∃ addr width, e = .regRead addr width) ∨ (∃ off, e = .memRead off) →
    access e s = .next t → t = { s with replies := t.replies, draws := t.draws }

/-! ### MEM and the Host -/

/-- Host MEM accesses while BUSY = 0: a write writes that byte alone; a read returns the byte's value, or a free
draw where nothing has written it. -/
def Obligations.IdleHostMemAccess : Prop :=
  ∀ (s : State) (off : Nat) (b : Byte), s.status.busy = false → off < s.params.memSize →
    (∃ m : Mem, access (.memWrite off b) s = .next { s with mem := m } ∧
      ∀ a : Nat, Mem.read? m a = if a = off then some b else Mem.read? s.mem a) ∧
    access (.memRead off) s =
      .next
        (match Mem.read? s.mem off with
        | some v => { s with replies := .byte v :: s.replies }
        | none => { s with replies := .byte (Config.freeByte s.draws) :: s.replies, draws := s.draws + 1 })

/-- Host MEM accesses while BUSY = 1 (20_memory.md section 5 and, for unwritten bytes, section 1). That the footprint
and the write set are those of a command that may yet be rejected is log entry 15; the value "after" of a rejected
command and the free draw for an unwritten byte are log entry 16. -/
def Obligations.HostMemAccessWhileBusy : Prop :=
  ∀ (s : State) (i : Instr) (off : Nat) (b : Byte),
    s.status.busy = true → decode s.cmdl = .ok i → off < s.params.memSize →
    (inFootprint i s off = true → access (.memWrite off b) s = .fault (.hostMemRace off)) ∧
    (inRange (writeRange i s) off = true → ∀ t : State, exec i s = .next t →
      ∃ u : State, access (.memRead off) s = .next u ∧
        u.replies =
          .byte (seenByte s.draws
            (if Config.freeBit s.draws = true then Mem.read? t.mem off else Mem.read? s.mem off)) :: s.replies) ∧
    (inRange (writeRange i s) off = false →
      access (.memRead off) s =
        .next
          (match Mem.read? s.mem off with
          | some v => { s with replies := .byte v :: s.replies }
          | none => { s with replies := .byte (Config.freeByte s.draws) :: s.replies, draws := s.draws + 1 })) ∧
    (inFootprint i s off = false →
      access (.memWrite off b) s = .next { s with mem := Mem.write s.mem off b })

/-- MEM has no byte at or beyond MEM_SIZE: a Host access there faults (the model's choice, log entry 12). -/
def Obligations.HostMemAccessOutsideFaults : Prop :=
  ∀ (s : State) (off : Nat) (b : Byte), s.params.memSize ≤ off →
    access (.memRead off) s = .fault (.hostMemOutside off) ∧
    access (.memWrite off b) s = .fault (.hostMemOutside off)

/-! ### Reset -/

/-- 10_state.md R36: what reset leaves in every register the rule gives a value, and in MEM, whatever the
parameters. -/
def Obligations.ResetValuesOfRegisters : Prop :=
  ∀ p : Params,
    (State.resetWith p).status.toWord = 0#32 ∧ (State.resetWith p).msgBase = 0#32 ∧
      (State.resetWith p).msgLen = 0#32 ∧ (State.resetWith p).plen = 0#32 ∧
      (State.resetWith p).h = #v[0x67452301#32, 0xEFCDAB89#32, 0x98BADCFE#32, 0x10325476#32] ∧
      (∀ i : Fin 4, (State.resetWith p).dout[i] = 0#32) ∧ (∀ i : Fin 16, (State.resetWith p).x[i] = 0#32) ∧
      (State.resetWith p).fsm = .idle ∧ ∀ off, Mem.read? (State.resetWith p).mem off = none

/-- Reset of a machine in any state: the registers take their reset values, the write set of an aborted PAD or HASH
becomes unwritten, and every other byte of MEM is unchanged (log entry 13; reset as one access is entry 14). -/
def Obligations.ResetAbortsAndClears : Prop :=
  ∀ s : State, ∃ t : State, access .reset s = .next t ∧
    t.status = { busy := false, done := false, err := false, ovr := false, ecode := .none } ∧
    t.msgBase = 0#32 ∧ t.msgLen = 0#32 ∧ t.plen = 0#32 ∧
    t.h = #v[0x67452301#32, 0xEFCDAB89#32, 0x98BADCFE#32, 0x10325476#32] ∧
    (∀ i : Fin 4, t.dout[i] = 0#32) ∧ (∀ i : Fin 16, t.x[i] = 0#32) ∧ t.fsm = .idle ∧
    t.params = s.params ∧ t.inputs = s.inputs ∧ t.replies = s.replies ∧
    ∀ off : Nat, Mem.read? t.mem off =
      if s.status.busy = true ∧ (decode s.cmdl = .ok .pad ∨ decode s.cmdl = .ok .hash) ∧
          s.msgBase.toNat + s.msgLen.toNat ≤ off ∧ off < s.msgBase.toNat + paddedLen s.msgLen.toNat then none
      else Mem.read? s.mem off

/-! ### INIT, FINAL -/

/-- 43_sequencer.md R181: INIT loads H with IV, sets DONE, and changes nothing else. -/
def Obligations.InitLoadsIV : Prop :=
  encode .init = 0x00000001#32 ∧
  (∀ s : State,
    exec .init s =
      .next
        { s with
          h := #v[0x67452301#32, 0xEFCDAB89#32, 0x98BADCFE#32, 0x10325476#32]
          status := { s.status with done := true, busy := false } }) ∧
  ∀ t : State, exec .init State.reset = .next t → t.h = State.reset.h

/-- 43_sequencer.md R186: FINAL latches DOUT from H, sets DONE, and changes nothing else; FINAL again changes
nothing; after reset it gives IV. -/
def Obligations.FinalLatchesState : Prop :=
  encode .final = 0x00000005#32 ∧
  (∀ s : State, ∃ t : State,
    exec .final s = .next t ∧
    t = { s with dout := s.h, status := { s.status with done := true, busy := false } } ∧
    exec .final t = .next t ∧
    ∀ i k : Fin 4, (ser s.h)[4 * i.val + k.val]? = some (t.dout[i].extractLsb' (8 * k.val) 8)) ∧
  ∀ t : State, exec .final State.reset = .next t →
    ser t.dout =
      [0x01#8, 0x23#8, 0x45#8, 0x67#8, 0x89#8, 0xab#8, 0xcd#8, 0xef#8, 0xfe#8, 0xdc#8, 0xba#8, 0x98#8, 0x76#8,
        0x54#8, 0x32#8, 0x10#8]

/-! ### The compression engine -/

/-- The five mixing functions, the equivalent forms of f2 and f4, which the spec marks as its own inference
(42_compression.md section 2: "bitwise identity, checked on every input combination of one bit position"), which
function and which constant each lane uses in each of its four rounds, and that no lane selects f5. -/
def Obligations.MixingFunctionForms : Prop :=
  (List.range 4).map (fSel .left) = [.f1, .f2, .f3, .f4] ∧ (List.range 4).map (fSel .right) = [.f4, .f3, .f2, .f1] ∧
  (List.range 4).map (kConst .left) = [0x00000000#32, 0x5A827999#32, 0x6ED9EBA1#32, 0x8F1BBCDC#32] ∧
  (List.range 4).map (kConst .right) = [0x50A28BE6#32, 0x5C4DD124#32, 0x6D703EF3#32, 0x00000000#32] ∧
  (∀ (l : Lane) (q : Nat), fSel l q ≠ .f5) ∧
  ∀ x y z : Word,
    mix .f1 x y z = x ^^^ y ^^^ z ∧
    mix .f2 x y z = z ^^^ (x &&& (y ^^^ z)) ∧ mix .f2 x y z = (x &&& y) ||| (~~~x &&& z) ∧
    mix .f3 x y z = z ^^^ (x ||| ~~~y) ∧
    mix .f4 x y z = y ^^^ (z &&& (x ^^^ y)) ∧ mix .f4 x y z = (x &&& z) ||| (y &&& ~~~z) ∧
    mix .f5 x y z = x ^^^ (y ||| ~~~z)

/-- 42_compression.md R147: which lane register plays which role at step j, and that the assignment returns every
four steps. -/
def Obligations.RolesRotate : Prop :=
  ∀ j : Nat,
    ((roleA j).val : Int) = (0 - (j : Int)) % 4 ∧ ((roleB j).val : Int) = (1 - (j : Int)) % 4 ∧
    ((roleC j).val : Int) = (2 - (j : Int)) % 4 ∧ ((roleD j).val : Int) = (3 - (j : Int)) % 4 ∧
    roleA (j + 4) = roleA j ∧ roleB (j + 4) = roleB j ∧ roleC (j + 4) = roleC j ∧ roleD (j + 4) = roleD j

/-- 42_compression.md R149 with the selections of R142, the constants of R143 and the tables of R144 and R145 written
out: step j of a lane writes the register that plays A, and no other. Each row of sixteen word indices is a
permutation, and every rotation is in 5..15. The spec records these as confirmed by its known-answer vectors (log
entry 18). -/
def Obligations.RoundStepUpdatesA : Prop :=
  let words : Lane → List Nat
    | .left =>
        [0, 1, 2, 3, 4, 5, 6, 7, 8, 9, 10, 11, 12, 13, 14, 15] ++
        [7, 4, 13, 1, 10, 6, 15, 3, 12, 0, 9, 5, 2, 14, 11, 8] ++
        [3, 10, 14, 4, 9, 15, 8, 1, 2, 7, 0, 6, 13, 11, 5, 12] ++
        [1, 9, 11, 10, 0, 8, 12, 4, 13, 3, 7, 15, 14, 5, 6, 2]
    | .right =>
        [5, 14, 7, 0, 9, 2, 11, 4, 13, 6, 15, 8, 1, 10, 3, 12] ++
        [6, 11, 3, 7, 0, 13, 5, 10, 14, 15, 8, 12, 4, 9, 1, 2] ++
        [15, 5, 1, 3, 7, 14, 6, 9, 11, 8, 12, 2, 10, 0, 4, 13] ++
        [8, 6, 4, 1, 3, 11, 15, 0, 5, 12, 2, 13, 9, 7, 10, 14]
  let rotations : Lane → List Nat
    | .left =>
        [11, 14, 15, 12, 5, 8, 7, 9, 11, 13, 14, 15, 6, 7, 9, 8] ++
        [7, 6, 8, 13, 11, 9, 7, 15, 7, 12, 15, 9, 11, 7, 13, 12] ++
        [11, 13, 6, 7, 14, 9, 13, 15, 14, 8, 13, 6, 5, 12, 7, 5] ++
        [11, 12, 14, 15, 14, 15, 9, 8, 9, 14, 5, 6, 8, 6, 5, 12]
    | .right =>
        [8, 9, 9, 11, 13, 15, 15, 5, 7, 7, 8, 11, 14, 14, 12, 6] ++
        [9, 13, 15, 7, 12, 8, 9, 11, 7, 7, 12, 7, 6, 15, 13, 11] ++
        [9, 7, 15, 11, 8, 6, 6, 14, 12, 13, 5, 14, 13, 13, 7, 5] ++
        [15, 5, 8, 11, 14, 14, 6, 14, 6, 9, 12, 9, 12, 5, 15, 8]
  let functions : Lane → List Mix
    | .left => [.f1, .f2, .f3, .f4]
    | .right => [.f4, .f3, .f2, .f1]
  let constants : Lane → List Word
    | .left => [0x00000000#32, 0x5A827999#32, 0x6ED9EBA1#32, 0x8F1BBCDC#32]
    | .right => [0x50A28BE6#32, 0x5C4DD124#32, 0x6D703EF3#32, 0x00000000#32]
  (∀ (l : Lane) (q w : Nat), q < 4 → w < 16 → ∃ c : Nat, c < 16 ∧ (words l)[16 * q + c]? = some w) ∧
  (∀ (l : Lane) (j : Nat), j < 64 → ∃ n : Nat, (rotations l)[j]? = some n ∧ 5 ≤ n ∧ n ≤ 15) ∧
  ∀ (l : Lane) (j : Nat) (v : Quad) (x : Block) (a b c d : Fin 4) (m : Mix) (w n : Nat) (k : Word),
    (a.val + j) % 4 = 0 → (b.val + j) % 4 = 1 → (c.val + j) % 4 = 2 → (d.val + j) % 4 = 3 →
    (words l)[j]? = some w → (rotations l)[j]? = some n → (functions l)[j / 16]? = some m →
    (constants l)[j / 16]? = some k →
    (rfStep l j v x)[a] = rol (v[a] + mix m v[b] v[c] v[d] + x[Fin.ofNat 16 w] + k) n ∧
    (rfStep l j v x)[b] = v[b] ∧ (rfStep l j v x)[c] = v[c] ∧ (rfStep l j v x)[d] = v[d]

/-- Running the lanes side by side is running each by itself, an inference the spec marks as its own
(42_compression.md section 4: "The two lanes share no value"). -/
def Obligations.LanesAreIndependent : Prop :=
  ∀ (h : Quad) (x : Block) (n : Nat), lanesAfter h x n = (laneAlone .left h x n, laneAlone .right h x n)

/-- 42_compression.md R153 and R160: COMPRESS gives H the cross-combination of the old H with both lanes after
their 64 steps, sets DONE, and leaves all but H, VL and VR. -/
def Obligations.CompressFoldsBlock : Prop :=
  encode .compress = 0x00000004#32 ∧
  ∀ s : State,
    let l := laneAlone .left s.h s.x 64
    let r := laneAlone .right s.h s.x 64
    ∃ vl vr : Quad,
      exec .compress s =
        .next
          { s with
            h := #v[s.h[1] + l[2] + r[3], s.h[2] + l[3] + r[0], s.h[3] + l[0] + r[1], s.h[0] + l[1] + r[2]]
            vl := vl
            vr := vr
            status := { s.status with done := true, busy := false } }

/-! ### Padding and PAD -/

/-- The padded length; its second form is an inference the spec marks as its own (41_padding.md section 1: "the
smallest multiple of 64 that is at least L + 9"). -/
def Obligations.PaddedLengthIsBlockMultiple : Prop :=
  ∀ L : Nat,
    paddedLen L = L + padlen L + 8 ∧ paddedLen L % 64 = 0 ∧ 64 ≤ paddedLen L ∧
      paddedLen L = 64 * ((L + 8) / 64 + 1) ∧
      L + 9 ≤ paddedLen L ∧ ∀ m : Nat, m % 64 = 0 → L + 9 ≤ m → paddedLen L ≤ m

/-- The padded message is whole blocks, 0x80 follows the message, the length field ends it: an inference the spec
marks as its own (41_padding.md section 1: "For every message m, `len(pad(m)) mod 64 = 0`"). -/
def Obligations.PaddedMessageShape : Prop :=
  ∀ m : List Byte,
    (padMessage m).length % 64 = 0 ∧ (padMessage m)[m.length]? = some 0x80#8 ∧
      (padMessage m).drop (paddedLen m.length - 8) =
        bytesLE32 (BitVec.ofNat 32 (8 * m.length)) ++ [0#8, 0#8, 0#8, 0#8] ∧
      (padMessage m).take m.length = m

/-- 41_padding.md R123: the length field holds the low 32 bits of the bit length, little-endian, and four zero
bytes; so it repeats every 2^29 bytes of message. -/
def Obligations.LengthFieldTruncates : Prop :=
  ∀ L : Nat,
    (lengthField L).length = 8 ∧
      (∀ k : Nat, k < 4 → (lengthField L)[k]? = some (BitVec.ofNat 8 ((8 * L) % 2 ^ 32 / 256 ^ k))) ∧
      (∀ k : Nat, 4 ≤ k → k < 8 → (lengthField L)[k]? = some 0#8) ∧
      lengthField (L + 2 ^ 29) = lengthField L

/-- 41_padding.md R126: PAD inside MEM writes 0x80, zeros and the length field after the message, PLEN, DONE, and
nothing else; beyond MEM it is RANGE and writes nothing. The bound on MEM_SIZE is that of 00_scope.md R8. -/
def Obligations.PadWritesTailInPlace : Prop :=
  encode .pad = 0x00000002#32 ∧
  ∀ s : State,
    let B := s.msgBase.toNat
    let L := s.msgLen.toNat
    let P := 64 * ((L + 8) / 64 + 1)
    (s.params.memSize < B + P →
      exec .pad s = .next { s with status := { s.status with err := true, ecode := .range, busy := false } }) ∧
    (s.params.memSize ≤ 2 ^ 32 - 64 → B + P ≤ s.params.memSize → ∃ t : State, exec .pad s = .next t ∧
      t = { s with mem := t.mem, plen := t.plen, status := { s.status with done := true, busy := false } } ∧
      t.plen.toNat = P ∧
      ∀ off : Nat, Mem.read? t.mem off =
        if off < B + L then Mem.read? s.mem off
        else if off = B + L then some 0x80#8
        else if off < B + P - 8 then some 0x00#8
        else if off < B + P - 4 then some (BitVec.ofNat 8 (8 * L / 256 ^ (off - (B + P - 8))))
        else if off < B + P then some 0x00#8
        else Mem.read? s.mem off)

/-! ### LOADBLK -/

/-- 43_sequencer.md R184: LOADBLK n inside MEM, over written bytes, sets X[i] to the little-endian word at
MSG_BASE + 64 n + 4 i, DONE, and nothing else; beyond MEM it is RANGE; over an unwritten byte it faults. -/
def Obligations.LoadblkAssemblesWords : Prop :=
  (∀ n : Nat, n ≤ 0xFFFFFF → encode (.loadblk n) = (BitVec.ofNat 32 n <<< 8) ||| 0x03#32) ∧
  ∀ (s : State) (n : Nat),
    let a := s.msgBase.toNat + 64 * n
    (s.params.memSize < a + 64 →
      exec (.loadblk n) s =
        .next { s with status := { s.status with err := true, ecode := .range, busy := false } }) ∧
    (a + 64 ≤ s.params.memSize → ¬ Written s.mem a 64 →
      ∃ off : Nat, Mem.read? s.mem off = none ∧ exec (.loadblk n) s = .fault (.uninitRead (.loadblk n) off)) ∧
    (a + 64 ≤ s.params.memSize → Written s.mem a 64 → ∃ t : State, exec (.loadblk n) s = .next t ∧
      t = { s with x := t.x, status := { s.status with done := true, busy := false } } ∧
      ∀ (i : Fin 16) (b0 b1 b2 b3 : Byte),
        Mem.read? s.mem (a + 4 * i) = some b0 → Mem.read? s.mem (a + 4 * i + 1) = some b1 →
        Mem.read? s.mem (a + 4 * i + 2) = some b2 → Mem.read? s.mem (a + 4 * i + 3) = some b3 →
        t.x[i].toNat = b0.toNat + 2 ^ 8 * b1.toNat + 2 ^ 16 * b2.toNat + 2 ^ 24 * b3.toNat)

/-! ### DIGEST and HASH -/

/-- DIGEST's result, an inference the spec marks as its own (43_sequencer.md section 1: "DIGEST's result on success
is"): on success DIGEST's result is digest_fn of the buffer; DOUT holds H, X the last block if
there is one, and nothing else but VL, VR and STATUS changes. That
CMDL, STEP, BLK and the FSM state stay is the model's choice (log entry 7). -/
def Obligations.DigestComputesDigestFn : Prop :=
  ∀ s : State,
    let B := s.msgBase.toNat
    let L := s.msgLen.toNat
    L % 64 = 0 → B + L ≤ s.params.memSize → Written s.mem B L →
    ∃ t : State, exec .digest s = .next t ∧
      ser t.h = digestFn (bytesAt s.mem B L) ∧ t.dout = t.h ∧
      t.x = (if L = 0 then s.x else blockAt s.mem (B + L - 64)) ∧
      t = { s with
        h := t.h, x := t.x, vl := t.vl, vr := t.vr, dout := t.dout
        status := { s.status with done := true, busy := false } }

/-- HASH's digest, an inference the spec marks as its own (43_sequencer.md section 1: "HASH's digest on success
is"): on success HASH's digest is hash_fn of the message as it was; MEM then holds its padded
form, PLEN its length, DOUT holds H, X the last block, and nothing else but VL, VR and STATUS changes. That
CMDL, STEP, BLK and the FSM state stay is the model's choice (log entry 7). -/
def Obligations.HashComputesHashFn : Prop :=
  ∀ s : State,
    let B := s.msgBase.toNat
    let L := s.msgLen.toNat
    let P := paddedLen L
    s.params.memSize ≤ 2 ^ 32 - 64 → B + P ≤ s.params.memSize → Written s.mem B L →
    ∃ t : State, exec .hash s = .next t ∧
      ser t.h = hashFn (bytesAt s.mem B L) ∧ t.dout = t.h ∧ t.plen.toNat = P ∧
      bytesAt t.mem B P = padMessage (bytesAt s.mem B L) ∧
      t.x = blockAt t.mem (B + P - 64) ∧
      (∀ off : Nat, off < B + L ∨ B + P ≤ off → Mem.read? t.mem off = Mem.read? s.mem off) ∧
      t = { s with
        h := t.h, x := t.x, vl := t.vl, vr := t.vr, dout := t.dout, mem := t.mem, plen := t.plen
        status := { s.status with done := true, busy := false } }

/-- HASH is PAD and then DIGEST with MSG_LEN = PLEN, apart from MSG_LEN itself. -/
def Obligations.HashIsPadThenDigest : Prop :=
  ∀ s : State,
    s.params.memSize ≤ 2 ^ 32 - 64 → s.msgBase.toNat + paddedLen s.msgLen.toNat ≤ s.params.memSize →
    Written s.mem s.msgBase.toNat s.msgLen.toNat →
    ∃ u v : State, exec .pad s = .next u ∧ exec .digest { u with msgLen := u.plen } = .next v ∧
      exec .hash s = .next { v with msgLen := s.msgLen }

/-- INIT, LOADBLK and COMPRESS of each block, FINAL leave the same H, X and DOUT as DIGEST: an inference the spec
marks as its own (43_sequencer.md section 2: "leaves the same H, X and DOUT as DIGEST with MSG_LEN = L").
(The command words hold n only up to 2^24 - 1; the meanings are stated for every n.) -/
def Obligations.StepwiseCommandsEqualDigest : Prop :=
  ∀ (s : State) (N : Nat), s.msgLen.toNat = 64 * N → s.msgBase.toNat + 64 * N ≤ s.params.memSize →
    Written s.mem s.msgBase.toNat (64 * N) →
    ∃ t u : State,
      execAll ([.init] ++ blockCommands 0 N ++ [.final]) s = .next t ∧ exec .digest s = .next u ∧
      t.h = u.h ∧ t.x = u.x ∧ t.dout = u.dout ∧ t.msgLen = s.msgLen ∧
      ∀ off : Nat, Mem.read? t.mem off = Mem.read? u.mem off

/-- DIGEST of a zero-length buffer: H and DOUT are IV, X is unchanged (92_eei_decisions.md D12). -/
def Obligations.DigestOfEmptyBuffer : Prop :=
  ∀ s : State, s.msgLen = 0#32 → s.msgBase.toNat ≤ s.params.memSize →
    exec .digest s =
      .next
        { s with
          h := #v[0x67452301#32, 0xEFCDAB89#32, 0x98BADCFE#32, 0x10325476#32]
          dout := #v[0x67452301#32, 0xEFCDAB89#32, 0x98BADCFE#32, 0x10325476#32]
          status := { s.status with done := true, busy := false } }

/-- No state carries into a DIGEST or a HASH, an inference the spec marks as its own (43_sequencer.md section 2:
"No state carries from one DIGEST or HASH into the next"): over the same bytes, whatever else two states
hold and wherever the bytes stand, the digests agree. -/
def Obligations.NoStateCarriesOver : Prop :=
  ∀ a b t u : State, a.msgLen = b.msgLen →
    bytesAt a.mem a.msgBase.toNat a.msgLen.toNat = bytesAt b.mem b.msgBase.toNat b.msgLen.toNat →
    (∀ i : Instr, i = .digest ∨ i = .hash →
      errorOf i a = none → errorOf i b = none → exec i a = .next t → exec i b = .next u →
        t.h = u.h ∧ t.dout = u.dout)

/-! ### Errors and faults -/

/-- 60_exceptions.md R224: a command whose footprint ends beyond MEM_SIZE is rejected with RANGE, STATUS alone
changing; INIT, COMPRESS and FINAL never are. -/
def Obligations.RangeRejectsWholeCommand : Prop :=
  ∀ s : State,
    let B := s.msgBase.toNat
    let L := s.msgLen.toNat
    let P := 64 * ((L + 8) / 64 + 1)
    let rejected : State := { s with status := { s.status with err := true, ecode := .range, busy := false } }
    (s.params.memSize < B + P → exec .pad s = .next rejected ∧ exec .hash s = .next rejected) ∧
    (∀ n : Nat, s.params.memSize < B + 64 * n + 64 → exec (.loadblk n) s = .next rejected) ∧
    (L % 64 = 0 → s.params.memSize < B + L → exec .digest s = .next rejected) ∧
    ∀ (i : Instr) (t : State), i = .init ∨ i = .compress ∨ i = .final → s.status.ecode ≠ .range →
      exec i s = .next t → t.status.ecode ≠ .range

/-- 60_exceptions.md R223: DIGEST of a length that is no multiple of 64 is rejected with UNALIGNED_LEN, out of range
or not; no other command ever raises it. -/
def Obligations.UnalignedDigestRejected : Prop :=
  (∀ s : State, s.msgLen.toNat % 64 ≠ 0 →
    exec .digest s =
      .next { s with status := { s.status with err := true, ecode := .unalignedLen, busy := false } }) ∧
  ∀ (s t : State) (i : Instr), i ≠ .digest → s.status.ecode ≠ .unalignedLen →
    exec i s = .next t → t.status.ecode ≠ .unalignedLen

/-- 60_exceptions.md R221: a rejected command writes ERR and ECODE, clears BUSY, and changes nothing else. From the
STATUS of a running command. -/
def Obligations.RejectionIsPrecise : Prop :=
  ∀ (s t : State) (i : Instr),
    s.status.busy = true → s.status.coherent = true → exec i s = .next t → t.status.err = true →
    ∃ c : ECode, (c = .unalignedLen ∨ c = .range) ∧
      t = { s with status := { s.status with err := true, ecode := c, busy := false } }

/-- A completed command leaves BUSY = 0 and exactly one of DONE and ERR. From the STATUS of a running command. -/
def Obligations.CompletionReportsOnce : Prop :=
  ∀ (s t : State) (i : Instr), s.status.busy = true → s.status.coherent = true → exec i s = .next t →
    t.status.busy = false ∧ (t.status.done = true ↔ t.status.err = false) ∧
      (t.status.done = true ↔ errorOf i s = none) ∧ t.status.coherent = true

/-- OVR (60_exceptions.md section 1) changes neither the errors nor the effect of the running command, and a completion
keeps it. -/
def Obligations.OverrunDisturbsNothing : Prop :=
  ∀ (s : State) (i : Instr) (o : Bool),
    exec i { s with status := { s.status with ovr := o } } =
      seenThrough (fun t => { t with status := { t.status with ovr := o } }) (exec i s)

/-- A Core read of a byte nothing has written is the fault UNINIT_READ, naming the command and the lowest such
offset (of the message part, for HASH). That it is the lowest is the model's choice (log entry 26). -/
def Obligations.UninitReadNamesOffset : Prop :=
  ∀ (s : State) (i : Instr) (a n off : Nat),
    (∃ k, i = .loadblk k ∧ a = s.msgBase.toNat + 64 * k ∧ n = 64) ∨
      ((i = .digest ∨ i = .hash) ∧ a = s.msgBase.toNat ∧ n = s.msgLen.toNat) →
    errorOf i s = none → a ≤ off → off < a + n → Mem.read? s.mem off = none →
    (∀ k, a ≤ k → k < off → (Mem.read? s.mem k).isSome = true) →
    exec i s = .fault (.uninitRead i off)

/-- Over a MEM that is written throughout, the Core's step always answers a next state. -/
def Obligations.CoreCompletesOverWrittenMem : Prop :=
  ∀ s : State, State.Inv s → nextAgent s = some .core → Written s.mem 0 s.params.memSize →
    ∃ t : State, step s = .next t ∧ t.status.busy = false

/-- From a state that meets the invariant the machine never refuses: no word but a legal one reaches the Core's
step. -/
def Obligations.InvariantRulesOutRefusal : Prop :=
  ∀ (s : State) (r : Refusal), State.Inv s → step s ≠ .refused r

/-! ### Frames -/

/-- INIT, LOADBLK, COMPRESS, FINAL and DIGEST store nothing: every byte of MEM reads as before, and so does every
register but those 30_encoding.md section 5 lists for the command, and STATUS. That CMDL, STEP, BLK, the FSM state
and, in the other commands, VL and VR stay is the model's choice (log entries 6 and 7). -/
def Obligations.NonStoringCommandsFrame : Prop :=
  ∀ (s t : State) (i : Instr),
    i = .init ∨ (∃ n, i = .loadblk n) ∨ i = .compress ∨ i = .final ∨ i = .digest → exec i s = .next t →
    (∀ off : Nat, Mem.read? t.mem off = Mem.read? s.mem off) ∧
    t.msgBase = s.msgBase ∧ t.msgLen = s.msgLen ∧ t.plen = s.plen ∧ t.cmdl = s.cmdl ∧ t.params = s.params ∧
    t.inputs = s.inputs ∧ t.turns = s.turns ∧ t.replies = s.replies ∧ t.draws = s.draws ∧
    t.status.ovr = s.status.ovr ∧
    (i ≠ .init → i ≠ .compress → i ≠ .digest → t.h = s.h) ∧
    (i ≠ .final → i ≠ .digest → t.dout = s.dout) ∧
    ((∀ n, i ≠ .loadblk n) → i ≠ .digest → t.x = s.x) ∧
    (i ≠ .compress → i ≠ .digest → t.vl = s.vl ∧ t.vr = s.vr) ∧
    t.stepCtr = s.stepCtr ∧ t.blkCtr = s.blkCtr ∧ t.fsm = s.fsm

/-- PAD and HASH store only in [MSG_BASE + L, MSG_BASE + P); PAD changes no register but PLEN and STATUS, HASH none
but PLEN, H, X, VL, VR, DOUT and STATUS. That CMDL, STEP, BLK and the FSM state stay, and VL and VR in PAD, is the
model's choice (log entries 6 and 7). -/
def Obligations.StoringCommandsFrame : Prop :=
  ∀ (s t : State) (i : Instr), i = .pad ∨ i = .hash → exec i s = .next t →
    (∀ off : Nat,
      off < s.msgBase.toNat + s.msgLen.toNat ∨ s.msgBase.toNat + paddedLen s.msgLen.toNat ≤ off →
      Mem.read? t.mem off = Mem.read? s.mem off) ∧
    t.msgBase = s.msgBase ∧ t.msgLen = s.msgLen ∧ t.cmdl = s.cmdl ∧ t.params = s.params ∧
    t.inputs = s.inputs ∧ t.turns = s.turns ∧ t.replies = s.replies ∧ t.draws = s.draws ∧
    t.status.ovr = s.status.ovr ∧
    (i = .pad → t.h = s.h ∧ t.x = s.x ∧ t.dout = s.dout ∧ t.vl = s.vl ∧ t.vr = s.vr) ∧
    t.stepCtr = s.stepCtr ∧ t.blkCtr = s.blkCtr ∧ t.fsm = s.fsm

/-- Which steps can change which register, over the whole machine (for DOUT an inference the spec marks as its own,
43_sequencer.md section 2: "DOUT changes only at the completion of FINAL, DIGEST or HASH"): DOUT only the completion
of FINAL, DIGEST or HASH, PLEN only that of PAD or HASH, H only that of INIT, COMPRESS, DIGEST or HASH or a Host
register write, X only that of LOADBLK, DIGEST or HASH or a Host register write, MSG_BASE and MSG_LEN only a Host
register write, each besides reset. -/
def Obligations.RegistersChangeOnlyBy : Prop :=
  ∀ s t : State, step s = .next t →
    let byReset : Prop := nextAgent s = some .host ∧ s.inputs.head? = some .reset
    let byCommand (i : Instr) : Prop := nextAgent s = some .core ∧ decode s.cmdl = .ok i
    let byWrite : Prop :=
      nextAgent s = some .host ∧ ∃ addr width v, s.inputs.head? = some (.regWrite addr width v)
    (t.dout ≠ s.dout → byCommand .final ∨ byCommand .digest ∨ byCommand .hash ∨ byReset) ∧
    (t.plen ≠ s.plen → byCommand .pad ∨ byCommand .hash ∨ byReset) ∧
    (t.h ≠ s.h →
      byCommand .init ∨ byCommand .compress ∨ byCommand .digest ∨ byCommand .hash ∨ byWrite ∨ byReset) ∧
    (t.x ≠ s.x → (∃ n, byCommand (.loadblk n)) ∨ byCommand .digest ∨ byCommand .hash ∨ byWrite ∨ byReset) ∧
    (t.msgBase ≠ s.msgBase ∨ t.msgLen ≠ s.msgLen → byWrite ∨ byReset) ∧
    t.params = s.params

/-! ### Invariants, isolation, refinement -/

/-- The invariant holds after reset, whatever parameters the spec allows; the machine's own reset is one of these
(its parameters are the model's choice, log entries 1 and 2). -/
def Obligations.InvariantAtReset : Prop :=
  (∀ p : Params, p.ok = true → State.Inv (State.resetWith p)) ∧
    State.reset = State.resetWith Config.defaultParams ∧ State.Inv State.reset

/-- Every step keeps the invariant. -/
def Obligations.StepKeepsInvariant : Prop :=
  ∀ s t : State, State.Inv s → step s = .next t → State.Inv t

/-- What the Host can see never depends on the lane registers (nor on the rest of the hidden state between
commands), an inference the spec marks as its own (10_state.md section 4: "A Host-visible result never depends on
the values the lane registers hold before a command"): two states that look alike answer alike, step by step.
The two runs take the same free draws: the statement compares them by their draws (log entry 11), and says only that
the hidden state does not choose one. -/
def Obligations.HiddenStateIsNeverSeen : Prop :=
  ∀ a b : State, a.visible = b.visible →
    seenThrough State.visible (step a) = seenThrough State.visible (step b)

/-- The reference sequencer of 43_sequencer.md section 3, run from IDLE on a latched command, comes back to IDLE with
what the atomic complete step leaves, or faults as it does. The
sequencer is not normative; what the model fixes of it is log entry 21. -/
def Obligations.ReferenceSequencerRefines : Prop :=
  ∀ (s : State) (i : Instr), s.status.busy = true → s.fsm = .idle →
    ∃ n : Nat,
      seenThrough State.apart (fsmRun i n s) = seenThrough State.apart (exec i s) ∧
      ∀ t : State, fsmRun i n s = .next t → t.fsm = .idle ∧ t.status.busy = false
end

