-- ==== Sys2Proof/Laws/Memory.lean ====
section
/-! SUPPORT. The laws of MEM: reads after writes, the canonical form, unwritten bytes (20_memory.md R63, R64). -/

namespace Sys2Proof.Machine

/-! ### Reads after writes -/

@[simp] theorem read_nil (a : Nat) : Mem.read? [] a = none := rfl

@[simp] theorem read_cons (c : Host.Cell) (m : Mem) (a : Nat) :
    Mem.read? (c :: m) a = if c.1 = a then some c.2 else Mem.read? m a := rfl

theorem read_write (m : Mem) (a off : Nat) (b : Byte) :
    Mem.read? (Mem.write m a b) off = if off = a then some b else Mem.read? m off := by
  induction m with
  | nil => simp only [Mem.write, read_cons, read_nil, eq_comm]
  | cons c cs ih =>
    simp only [Mem.write]
    split
    · simp only [read_cons, eq_comm]
    · split
      · rename_i h1 h2
        subst h2
        simp only [read_cons]
        by_cases h : c.1 = off
        · simp [h]
        · simp [h, Ne.symm h]
      · rename_i h1 h2
        simp only [read_cons, ih]
        by_cases h : c.1 = off
        · subst h
          simp [h2]
        · simp [h]

@[simp] theorem read_write_same (m : Mem) (a : Nat) (b : Byte) : Mem.read? (Mem.write m a b) a = some b := by
  simp [read_write]

theorem read_write_other (m : Mem) {a off : Nat} (b : Byte) (h : off ≠ a) :
    Mem.read? (Mem.write m a b) off = Mem.read? m off := by
  simp [read_write, h]

/-- What every byte reads as after a run of bytes is written. -/
theorem read_writeBytes (m : Mem) (a off : Nat) (bs : List Byte) :
    Mem.read? (Mem.writeBytes m a bs) off =
      if a ≤ off ∧ off < a + bs.length then bs[off - a]? else Mem.read? m off := by
  induction bs generalizing m a with
  | nil => simp [Mem.writeBytes, show ¬(a ≤ off ∧ off < a) by omega]
  | cons b rest ih =>
    simp only [Mem.writeBytes, ih, read_write, List.length_cons]
    by_cases h1 : off = a
    · subst h1; simp
    · by_cases h2 : a ≤ off ∧ off < a + (rest.length + 1)
      · rw [if_pos (by omega), if_pos h2, show off - a = (off - (a + 1)) + 1 by omega, List.getElem?_cons_succ]
      · rw [if_neg (by omega), if_neg h1, if_neg h2]

theorem inRange_iff (r : Nat × Nat) (off : Nat) : inRange r off = true ↔ r.1 ≤ off ∧ off < r.2 := by
  simp [inRange]

theorem read_unwrite (m : Mem) (r : Nat × Nat) (off : Nat) :
    Mem.read? (Mem.unwrite m r) off = if inRange r off then none else Mem.read? m off := by
  induction m with
  | nil => simp [Mem.unwrite]
  | cons c cs ih =>
    simp only [Mem.unwrite, List.filter_cons] at ih ⊢
    by_cases hc : inRange r c.1
    · simp only [hc, Bool.not_true, Bool.false_eq_true, if_false, ih, read_cons]
      by_cases h : c.1 = off
      · subst h; simp [hc]
      · simp [h]
    · simp only [hc, Bool.not_false, if_true, read_cons, ih]
      by_cases h : c.1 = off
      · subst h; simp [hc]
      · simp [h]

/-! ### The canonical form is kept -/

theorem wf_iff (m : Mem) : Mem.wf m = true ↔ m.Pairwise fun c d => c.1 < d.1 := by simp [Mem.wf]

theorem mem_write {m : Mem} {a : Nat} {b : Byte} {c : Host.Cell} (h : c ∈ Mem.write m a b) : c = (a, b) ∨ c ∈ m := by
  induction m with
  | nil => simpa [Mem.write] using h
  | cons d ds ih =>
    simp only [Mem.write] at h
    split at h
    · simpa using h
    · split at h
      · rcases List.mem_cons.1 h with h | h
        · exact .inl h
        · exact .inr (List.mem_cons_of_mem _ h)
      · rcases List.mem_cons.1 h with h | h
        · exact .inr (by simp [h])
        · rcases ih h with h | h
          · exact .inl h
          · exact .inr (List.mem_cons_of_mem _ h)

theorem wf_write {m : Mem} (h : Mem.wf m = true) (a : Nat) (b : Byte) : Mem.wf (Mem.write m a b) = true := by
  rw [wf_iff] at h ⊢
  induction m with
  | nil => simp [Mem.write]
  | cons d ds ih =>
    obtain ⟨hd, hds⟩ := List.pairwise_cons.1 h
    simp only [Mem.write]
    split
    · rename_i hlt
      refine List.pairwise_cons.2 ⟨fun e he => ?_, h⟩
      rcases List.mem_cons.1 he with rfl | he
      · exact hlt
      · exact Nat.lt_trans hlt (hd e he)
    · split
      · rename_i heq
        exact List.pairwise_cons.2 ⟨fun e he => heq ▸ hd e he, hds⟩
      · rename_i h1 h2
        refine List.pairwise_cons.2 ⟨fun e he => ?_, ih hds⟩
        rcases mem_write he with rfl | he
        · exact Nat.lt_of_le_of_ne (Nat.le_of_not_lt h1) h2
        · exact hd e he

theorem wf_writeBytes {m : Mem} (h : Mem.wf m = true) (a : Nat) (bs : List Byte) :
    Mem.wf (Mem.writeBytes m a bs) = true := by
  induction bs generalizing m a with
  | nil => exact h
  | cons b rest ih => exact ih (wf_write h a b) (a + 1)

theorem wf_unwrite {m : Mem} (h : Mem.wf m = true) (r : Nat × Nat) : Mem.wf (Mem.unwrite m r) = true := by
  rw [wf_iff] at h ⊢
  exact h.filter _

theorem wf_reset : Mem.wf State.reset.mem = true := by decide

/-- Writing bytes below a bound keeps every entry below it. -/
theorem below_writeBytes {m : Mem} {n : Nat} (h : ∀ c ∈ m, c.1 < n) (a : Nat) (bs : List Byte)
    (hb : a + bs.length ≤ n) : ∀ c ∈ Mem.writeBytes m a bs, c.1 < n := by
  induction bs generalizing m a with
  | nil => exact h
  | cons b rest ih =>
    rw [List.length_cons] at hb
    refine ih (fun c hc => ?_) (a + 1) (by omega)
    rcases mem_write hc with rfl | hc
    · show a < n
      omega
    · exact h c hc

/-! ### Unwritten bytes -/

theorem firstUnwritten_none_iff (m : Mem) (a n : Nat) :
    firstUnwritten m a n = none ↔ ∀ off, a ≤ off → off < a + n → (Mem.read? m off).isSome = true := by
  induction n generalizing a with
  | zero => simp [firstUnwritten]; omega
  | succ k ih =>
    simp only [firstUnwritten]
    split
    · rename_i h
      simp only [reduceCtorEq, false_iff]
      intro hall
      have := hall a (Nat.le_refl a) (by omega)
      simp_all
    · rename_i h
      rw [ih]
      constructor
      · intro hall off h1 h2
        rcases Nat.eq_or_lt_of_le h1 with rfl | h1
        · cases hr : Mem.read? m a <;> simp_all
        · exact hall off h1 (by omega)
      · exact fun hall off h1 h2 => hall off (by omega) (by omega)

/-- UNINIT_READ names the lowest unwritten offset of what is read. -/
theorem firstUnwritten_some_iff (m : Mem) (a n off : Nat) :
    firstUnwritten m a n = some off ↔
      a ≤ off ∧ off < a + n ∧ Mem.read? m off = none ∧
        ∀ k, a ≤ k → k < off → (Mem.read? m k).isSome = true := by
  induction n generalizing a with
  | zero => simp [firstUnwritten]; omega
  | succ k ih =>
    simp only [firstUnwritten]
    split
    · rename_i h
      constructor
      · intro heq
        have heq : a = off := by simpa using heq
        subst heq
        exact ⟨Nat.le_refl a, by omega, by simpa using h, fun j h1 h2 => absurd h2 (by omega)⟩
      · rintro ⟨h1, h2, h3, h4⟩
        rcases Nat.eq_or_lt_of_le h1 with rfl | h1
        · rfl
        · have := h4 a (Nat.le_refl a) h1
          simp_all
    · rename_i h
      rw [ih]
      constructor
      · rintro ⟨h1, h2, h3, h4⟩
        refine ⟨by omega, by omega, h3, fun j hj1 hj2 => ?_⟩
        rcases Nat.eq_or_lt_of_le hj1 with rfl | hj1
        · cases hr : Mem.read? m a <;> simp_all
        · exact h4 j hj1 hj2
      · rintro ⟨h1, h2, h3, h4⟩
        refine ⟨?_, by omega, h3, fun j hj1 hj2 => h4 j (by omega) hj2⟩
        rcases Nat.eq_or_lt_of_le h1 with rfl | h1
        · simp_all
        · omega

end Sys2Proof.Machine
end

