-- ==== Sys2Proof/Laws/State.lean ====
section
/-! SUPPORT. What each shared update does to each field of State: one lemma per field per update, by rfl. -/

namespace Sys2Proof.Machine

variable (s : State)

/-! ### finish -/

@[simp] theorem finish_params : (finish s).params = s.params := rfl
@[simp] theorem finish_status : (finish s).status = s.status.completed := rfl
@[simp] theorem finish_msgBase : (finish s).msgBase = s.msgBase := rfl
@[simp] theorem finish_msgLen : (finish s).msgLen = s.msgLen := rfl
@[simp] theorem finish_plen : (finish s).plen = s.plen := rfl
@[simp] theorem finish_h : (finish s).h = s.h := rfl
@[simp] theorem finish_dout : (finish s).dout = s.dout := rfl
@[simp] theorem finish_x : (finish s).x = s.x := rfl
@[simp] theorem finish_vl : (finish s).vl = s.vl := rfl
@[simp] theorem finish_vr : (finish s).vr = s.vr := rfl
@[simp] theorem finish_cmdl : (finish s).cmdl = s.cmdl := rfl
@[simp] theorem finish_stepCtr : (finish s).stepCtr = s.stepCtr := rfl
@[simp] theorem finish_blkCtr : (finish s).blkCtr = s.blkCtr := rfl
@[simp] theorem finish_fsm : (finish s).fsm = s.fsm := rfl
@[simp] theorem finish_mem : (finish s).mem = s.mem := rfl
@[simp] theorem finish_inputs : (finish s).inputs = s.inputs := rfl
@[simp] theorem finish_turns : (finish s).turns = s.turns := rfl
@[simp] theorem finish_replies : (finish s).replies = s.replies := rfl
@[simp] theorem finish_draws : (finish s).draws = s.draws := rfl

/-! ### reject -/

@[simp] theorem reject_params (c : ECode) : (reject c s).params = s.params := rfl
@[simp] theorem reject_status (c : ECode) : (reject c s).status = s.status.rejected c := rfl
@[simp] theorem reject_msgBase (c : ECode) : (reject c s).msgBase = s.msgBase := rfl
@[simp] theorem reject_msgLen (c : ECode) : (reject c s).msgLen = s.msgLen := rfl
@[simp] theorem reject_plen (c : ECode) : (reject c s).plen = s.plen := rfl
@[simp] theorem reject_h (c : ECode) : (reject c s).h = s.h := rfl
@[simp] theorem reject_dout (c : ECode) : (reject c s).dout = s.dout := rfl
@[simp] theorem reject_x (c : ECode) : (reject c s).x = s.x := rfl
@[simp] theorem reject_vl (c : ECode) : (reject c s).vl = s.vl := rfl
@[simp] theorem reject_vr (c : ECode) : (reject c s).vr = s.vr := rfl
@[simp] theorem reject_cmdl (c : ECode) : (reject c s).cmdl = s.cmdl := rfl
@[simp] theorem reject_stepCtr (c : ECode) : (reject c s).stepCtr = s.stepCtr := rfl
@[simp] theorem reject_blkCtr (c : ECode) : (reject c s).blkCtr = s.blkCtr := rfl
@[simp] theorem reject_fsm (c : ECode) : (reject c s).fsm = s.fsm := rfl
@[simp] theorem reject_mem (c : ECode) : (reject c s).mem = s.mem := rfl
@[simp] theorem reject_inputs (c : ECode) : (reject c s).inputs = s.inputs := rfl
@[simp] theorem reject_turns (c : ECode) : (reject c s).turns = s.turns := rfl
@[simp] theorem reject_replies (c : ECode) : (reject c s).replies = s.replies := rfl
@[simp] theorem reject_draws (c : ECode) : (reject c s).draws = s.draws := rfl

/-! ### padEffect -/

@[simp] theorem padEffect_params : (padEffect s).params = s.params := rfl
@[simp] theorem padEffect_status : (padEffect s).status = s.status := rfl
@[simp] theorem padEffect_msgBase : (padEffect s).msgBase = s.msgBase := rfl
@[simp] theorem padEffect_msgLen : (padEffect s).msgLen = s.msgLen := rfl
@[simp] theorem padEffect_plen : (padEffect s).plen = BitVec.ofNat 32 (paddedLen (len s)) := rfl
@[simp] theorem padEffect_h : (padEffect s).h = s.h := rfl
@[simp] theorem padEffect_dout : (padEffect s).dout = s.dout := rfl
@[simp] theorem padEffect_x : (padEffect s).x = s.x := rfl
@[simp] theorem padEffect_vl : (padEffect s).vl = s.vl := rfl
@[simp] theorem padEffect_vr : (padEffect s).vr = s.vr := rfl
@[simp] theorem padEffect_cmdl : (padEffect s).cmdl = s.cmdl := rfl
@[simp] theorem padEffect_stepCtr : (padEffect s).stepCtr = s.stepCtr := rfl
@[simp] theorem padEffect_blkCtr : (padEffect s).blkCtr = s.blkCtr := rfl
@[simp] theorem padEffect_fsm : (padEffect s).fsm = s.fsm := rfl
@[simp] theorem padEffect_mem : (padEffect s).mem = Mem.writeBytes s.mem (base s + len s) (padTail (len s)) := rfl
@[simp] theorem padEffect_inputs : (padEffect s).inputs = s.inputs := rfl
@[simp] theorem padEffect_turns : (padEffect s).turns = s.turns := rfl
@[simp] theorem padEffect_replies : (padEffect s).replies = s.replies := rfl
@[simp] theorem padEffect_draws : (padEffect s).draws = s.draws := rfl

/-! ### loadBlock -/

@[simp] theorem loadBlock_params (a : Nat) : (loadBlock a s).params = s.params := rfl
@[simp] theorem loadBlock_status (a : Nat) : (loadBlock a s).status = s.status := rfl
@[simp] theorem loadBlock_msgBase (a : Nat) : (loadBlock a s).msgBase = s.msgBase := rfl
@[simp] theorem loadBlock_msgLen (a : Nat) : (loadBlock a s).msgLen = s.msgLen := rfl
@[simp] theorem loadBlock_plen (a : Nat) : (loadBlock a s).plen = s.plen := rfl
@[simp] theorem loadBlock_h (a : Nat) : (loadBlock a s).h = s.h := rfl
@[simp] theorem loadBlock_dout (a : Nat) : (loadBlock a s).dout = s.dout := rfl
@[simp] theorem loadBlock_x (a : Nat) : (loadBlock a s).x = blockAt s.mem a := rfl
@[simp] theorem loadBlock_vl (a : Nat) : (loadBlock a s).vl = s.vl := rfl
@[simp] theorem loadBlock_vr (a : Nat) : (loadBlock a s).vr = s.vr := rfl
@[simp] theorem loadBlock_cmdl (a : Nat) : (loadBlock a s).cmdl = s.cmdl := rfl
@[simp] theorem loadBlock_stepCtr (a : Nat) : (loadBlock a s).stepCtr = s.stepCtr := rfl
@[simp] theorem loadBlock_blkCtr (a : Nat) : (loadBlock a s).blkCtr = s.blkCtr := rfl
@[simp] theorem loadBlock_fsm (a : Nat) : (loadBlock a s).fsm = s.fsm := rfl
@[simp] theorem loadBlock_mem (a : Nat) : (loadBlock a s).mem = s.mem := rfl
@[simp] theorem loadBlock_inputs (a : Nat) : (loadBlock a s).inputs = s.inputs := rfl
@[simp] theorem loadBlock_turns (a : Nat) : (loadBlock a s).turns = s.turns := rfl
@[simp] theorem loadBlock_replies (a : Nat) : (loadBlock a s).replies = s.replies := rfl
@[simp] theorem loadBlock_draws (a : Nat) : (loadBlock a s).draws = s.draws := rfl

/-! ### initH -/

@[simp] theorem initH_params : (initH s).params = s.params := rfl
@[simp] theorem initH_status : (initH s).status = s.status := rfl
@[simp] theorem initH_msgBase : (initH s).msgBase = s.msgBase := rfl
@[simp] theorem initH_msgLen : (initH s).msgLen = s.msgLen := rfl
@[simp] theorem initH_plen : (initH s).plen = s.plen := rfl
@[simp] theorem initH_h : (initH s).h = iv := rfl
@[simp] theorem initH_dout : (initH s).dout = s.dout := rfl
@[simp] theorem initH_x : (initH s).x = s.x := rfl
@[simp] theorem initH_vl : (initH s).vl = s.vl := rfl
@[simp] theorem initH_vr : (initH s).vr = s.vr := rfl
@[simp] theorem initH_cmdl : (initH s).cmdl = s.cmdl := rfl
@[simp] theorem initH_stepCtr : (initH s).stepCtr = s.stepCtr := rfl
@[simp] theorem initH_blkCtr : (initH s).blkCtr = s.blkCtr := rfl
@[simp] theorem initH_fsm : (initH s).fsm = s.fsm := rfl
@[simp] theorem initH_mem : (initH s).mem = s.mem := rfl
@[simp] theorem initH_inputs : (initH s).inputs = s.inputs := rfl
@[simp] theorem initH_turns : (initH s).turns = s.turns := rfl
@[simp] theorem initH_replies : (initH s).replies = s.replies := rfl
@[simp] theorem initH_draws : (initH s).draws = s.draws := rfl

/-! ### compressEffect -/

@[simp] theorem compressEffect_params : (compressEffect s).params = s.params := rfl
@[simp] theorem compressEffect_status : (compressEffect s).status = s.status := rfl
@[simp] theorem compressEffect_msgBase : (compressEffect s).msgBase = s.msgBase := rfl
@[simp] theorem compressEffect_msgLen : (compressEffect s).msgLen = s.msgLen := rfl
@[simp] theorem compressEffect_plen : (compressEffect s).plen = s.plen := rfl
@[simp] theorem compressEffect_h : (compressEffect s).h = compressFn s.h s.x := rfl
@[simp] theorem compressEffect_dout : (compressEffect s).dout = s.dout := rfl
@[simp] theorem compressEffect_x : (compressEffect s).x = s.x := rfl
@[simp] theorem compressEffect_vl : (compressEffect s).vl = (lanesAfter s.h s.x 64).1 := rfl
@[simp] theorem compressEffect_vr : (compressEffect s).vr = (lanesAfter s.h s.x 64).2 := rfl
@[simp] theorem compressEffect_cmdl : (compressEffect s).cmdl = s.cmdl := rfl
@[simp] theorem compressEffect_stepCtr : (compressEffect s).stepCtr = s.stepCtr := rfl
@[simp] theorem compressEffect_blkCtr : (compressEffect s).blkCtr = s.blkCtr := rfl
@[simp] theorem compressEffect_fsm : (compressEffect s).fsm = s.fsm := rfl
@[simp] theorem compressEffect_mem : (compressEffect s).mem = s.mem := rfl
@[simp] theorem compressEffect_inputs : (compressEffect s).inputs = s.inputs := rfl
@[simp] theorem compressEffect_turns : (compressEffect s).turns = s.turns := rfl
@[simp] theorem compressEffect_replies : (compressEffect s).replies = s.replies := rfl
@[simp] theorem compressEffect_draws : (compressEffect s).draws = s.draws := rfl

/-! ### latchOut -/

@[simp] theorem latchOut_params : (latchOut s).params = s.params := rfl
@[simp] theorem latchOut_status : (latchOut s).status = s.status := rfl
@[simp] theorem latchOut_msgBase : (latchOut s).msgBase = s.msgBase := rfl
@[simp] theorem latchOut_msgLen : (latchOut s).msgLen = s.msgLen := rfl
@[simp] theorem latchOut_plen : (latchOut s).plen = s.plen := rfl
@[simp] theorem latchOut_h : (latchOut s).h = s.h := rfl
@[simp] theorem latchOut_dout : (latchOut s).dout = s.h := rfl
@[simp] theorem latchOut_x : (latchOut s).x = s.x := rfl
@[simp] theorem latchOut_vl : (latchOut s).vl = s.vl := rfl
@[simp] theorem latchOut_vr : (latchOut s).vr = s.vr := rfl
@[simp] theorem latchOut_cmdl : (latchOut s).cmdl = s.cmdl := rfl
@[simp] theorem latchOut_stepCtr : (latchOut s).stepCtr = s.stepCtr := rfl
@[simp] theorem latchOut_blkCtr : (latchOut s).blkCtr = s.blkCtr := rfl
@[simp] theorem latchOut_fsm : (latchOut s).fsm = s.fsm := rfl
@[simp] theorem latchOut_mem : (latchOut s).mem = s.mem := rfl
@[simp] theorem latchOut_inputs : (latchOut s).inputs = s.inputs := rfl
@[simp] theorem latchOut_turns : (latchOut s).turns = s.turns := rfl
@[simp] theorem latchOut_replies : (latchOut s).replies = s.replies := rfl
@[simp] theorem latchOut_draws : (latchOut s).draws = s.draws := rfl

/-! ### addReply -/

@[simp] theorem addReply_params (r : Reply) : (addReply r s).params = s.params := rfl
@[simp] theorem addReply_status (r : Reply) : (addReply r s).status = s.status := rfl
@[simp] theorem addReply_msgBase (r : Reply) : (addReply r s).msgBase = s.msgBase := rfl
@[simp] theorem addReply_msgLen (r : Reply) : (addReply r s).msgLen = s.msgLen := rfl
@[simp] theorem addReply_plen (r : Reply) : (addReply r s).plen = s.plen := rfl
@[simp] theorem addReply_h (r : Reply) : (addReply r s).h = s.h := rfl
@[simp] theorem addReply_dout (r : Reply) : (addReply r s).dout = s.dout := rfl
@[simp] theorem addReply_x (r : Reply) : (addReply r s).x = s.x := rfl
@[simp] theorem addReply_vl (r : Reply) : (addReply r s).vl = s.vl := rfl
@[simp] theorem addReply_vr (r : Reply) : (addReply r s).vr = s.vr := rfl
@[simp] theorem addReply_cmdl (r : Reply) : (addReply r s).cmdl = s.cmdl := rfl
@[simp] theorem addReply_stepCtr (r : Reply) : (addReply r s).stepCtr = s.stepCtr := rfl
@[simp] theorem addReply_blkCtr (r : Reply) : (addReply r s).blkCtr = s.blkCtr := rfl
@[simp] theorem addReply_fsm (r : Reply) : (addReply r s).fsm = s.fsm := rfl
@[simp] theorem addReply_mem (r : Reply) : (addReply r s).mem = s.mem := rfl
@[simp] theorem addReply_inputs (r : Reply) : (addReply r s).inputs = s.inputs := rfl
@[simp] theorem addReply_turns (r : Reply) : (addReply r s).turns = s.turns := rfl
@[simp] theorem addReply_replies (r : Reply) : (addReply r s).replies = r :: s.replies := rfl
@[simp] theorem addReply_draws (r : Reply) : (addReply r s).draws = s.draws := rfl

/-! ### countDraw -/

@[simp] theorem countDraw_params : (countDraw s).params = s.params := rfl
@[simp] theorem countDraw_status : (countDraw s).status = s.status := rfl
@[simp] theorem countDraw_msgBase : (countDraw s).msgBase = s.msgBase := rfl
@[simp] theorem countDraw_msgLen : (countDraw s).msgLen = s.msgLen := rfl
@[simp] theorem countDraw_plen : (countDraw s).plen = s.plen := rfl
@[simp] theorem countDraw_h : (countDraw s).h = s.h := rfl
@[simp] theorem countDraw_dout : (countDraw s).dout = s.dout := rfl
@[simp] theorem countDraw_x : (countDraw s).x = s.x := rfl
@[simp] theorem countDraw_vl : (countDraw s).vl = s.vl := rfl
@[simp] theorem countDraw_vr : (countDraw s).vr = s.vr := rfl
@[simp] theorem countDraw_cmdl : (countDraw s).cmdl = s.cmdl := rfl
@[simp] theorem countDraw_stepCtr : (countDraw s).stepCtr = s.stepCtr := rfl
@[simp] theorem countDraw_blkCtr : (countDraw s).blkCtr = s.blkCtr := rfl
@[simp] theorem countDraw_fsm : (countDraw s).fsm = s.fsm := rfl
@[simp] theorem countDraw_mem : (countDraw s).mem = s.mem := rfl
@[simp] theorem countDraw_inputs : (countDraw s).inputs = s.inputs := rfl
@[simp] theorem countDraw_turns : (countDraw s).turns = s.turns := rfl
@[simp] theorem countDraw_replies : (countDraw s).replies = s.replies := rfl
@[simp] theorem countDraw_draws : (countDraw s).draws = s.draws + 1 := rfl

/-! ### readReg -/

@[simp] theorem readReg_params (r : Reg) : (readReg r s).params = s.params := by unfold readReg; split <;> rfl
@[simp] theorem readReg_status (r : Reg) : (readReg r s).status = s.status := by unfold readReg; split <;> rfl
@[simp] theorem readReg_msgBase (r : Reg) : (readReg r s).msgBase = s.msgBase := by unfold readReg; split <;> rfl
@[simp] theorem readReg_msgLen (r : Reg) : (readReg r s).msgLen = s.msgLen := by unfold readReg; split <;> rfl
@[simp] theorem readReg_plen (r : Reg) : (readReg r s).plen = s.plen := by unfold readReg; split <;> rfl
@[simp] theorem readReg_h (r : Reg) : (readReg r s).h = s.h := by unfold readReg; split <;> rfl
@[simp] theorem readReg_dout (r : Reg) : (readReg r s).dout = s.dout := by unfold readReg; split <;> rfl
@[simp] theorem readReg_x (r : Reg) : (readReg r s).x = s.x := by unfold readReg; split <;> rfl
@[simp] theorem readReg_vl (r : Reg) : (readReg r s).vl = s.vl := by unfold readReg; split <;> rfl
@[simp] theorem readReg_vr (r : Reg) : (readReg r s).vr = s.vr := by unfold readReg; split <;> rfl
@[simp] theorem readReg_cmdl (r : Reg) : (readReg r s).cmdl = s.cmdl := by unfold readReg; split <;> rfl
@[simp] theorem readReg_stepCtr (r : Reg) : (readReg r s).stepCtr = s.stepCtr := by unfold readReg; split <;> rfl
@[simp] theorem readReg_blkCtr (r : Reg) : (readReg r s).blkCtr = s.blkCtr := by unfold readReg; split <;> rfl
@[simp] theorem readReg_fsm (r : Reg) : (readReg r s).fsm = s.fsm := by unfold readReg; split <;> rfl
@[simp] theorem readReg_mem (r : Reg) : (readReg r s).mem = s.mem := by unfold readReg; split <;> rfl
@[simp] theorem readReg_inputs (r : Reg) : (readReg r s).inputs = s.inputs := by unfold readReg; split <;> rfl
@[simp] theorem readReg_turns (r : Reg) : (readReg r s).turns = s.turns := by unfold readReg; split <;> rfl

/-! ### readMem -/

@[simp] theorem readMem_params (off : Nat) : (readMem off s).params =
    s.params := by unfold readMem; split <;> (try split) <;> rfl
@[simp] theorem readMem_status (off : Nat) : (readMem off s).status =
    s.status := by unfold readMem; split <;> (try split) <;> rfl
@[simp] theorem readMem_msgBase (off : Nat) : (readMem off s).msgBase =
    s.msgBase := by unfold readMem; split <;> (try split) <;> rfl
@[simp] theorem readMem_msgLen (off : Nat) : (readMem off s).msgLen =
    s.msgLen := by unfold readMem; split <;> (try split) <;> rfl
@[simp] theorem readMem_plen (off : Nat) : (readMem off s).plen =
    s.plen := by unfold readMem; split <;> (try split) <;> rfl
@[simp] theorem readMem_h (off : Nat) : (readMem off s).h = s.h := by unfold readMem; split <;> (try split) <;> rfl
@[simp] theorem readMem_dout (off : Nat) : (readMem off s).dout =
    s.dout := by unfold readMem; split <;> (try split) <;> rfl
@[simp] theorem readMem_x (off : Nat) : (readMem off s).x = s.x := by unfold readMem; split <;> (try split) <;> rfl
@[simp] theorem readMem_vl (off : Nat) : (readMem off s).vl = s.vl := by unfold readMem; split <;> (try split) <;> rfl
@[simp] theorem readMem_vr (off : Nat) : (readMem off s).vr = s.vr := by unfold readMem; split <;> (try split) <;> rfl
@[simp] theorem readMem_cmdl (off : Nat) : (readMem off s).cmdl =
    s.cmdl := by unfold readMem; split <;> (try split) <;> rfl
@[simp] theorem readMem_stepCtr (off : Nat) : (readMem off s).stepCtr =
    s.stepCtr := by unfold readMem; split <;> (try split) <;> rfl
@[simp] theorem readMem_blkCtr (off : Nat) : (readMem off s).blkCtr =
    s.blkCtr := by unfold readMem; split <;> (try split) <;> rfl
@[simp] theorem readMem_fsm (off : Nat) : (readMem off s).fsm =
    s.fsm := by unfold readMem; split <;> (try split) <;> rfl
@[simp] theorem readMem_mem (off : Nat) : (readMem off s).mem =
    s.mem := by unfold readMem; split <;> (try split) <;> rfl
@[simp] theorem readMem_inputs (off : Nat) : (readMem off s).inputs =
    s.inputs := by unfold readMem; split <;> (try split) <;> rfl
@[simp] theorem readMem_turns (off : Nat) : (readMem off s).turns =
    s.turns := by unfold readMem; split <;> (try split) <;> rfl

/-! ### takeTurn -/

@[simp] theorem takeTurn_params : (takeTurn s).params = s.params := by unfold takeTurn; split <;> rfl
@[simp] theorem takeTurn_status : (takeTurn s).status = s.status := by unfold takeTurn; split <;> rfl
@[simp] theorem takeTurn_msgBase : (takeTurn s).msgBase = s.msgBase := by unfold takeTurn; split <;> rfl
@[simp] theorem takeTurn_msgLen : (takeTurn s).msgLen = s.msgLen := by unfold takeTurn; split <;> rfl
@[simp] theorem takeTurn_plen : (takeTurn s).plen = s.plen := by unfold takeTurn; split <;> rfl
@[simp] theorem takeTurn_h : (takeTurn s).h = s.h := by unfold takeTurn; split <;> rfl
@[simp] theorem takeTurn_dout : (takeTurn s).dout = s.dout := by unfold takeTurn; split <;> rfl
@[simp] theorem takeTurn_x : (takeTurn s).x = s.x := by unfold takeTurn; split <;> rfl
@[simp] theorem takeTurn_vl : (takeTurn s).vl = s.vl := by unfold takeTurn; split <;> rfl
@[simp] theorem takeTurn_vr : (takeTurn s).vr = s.vr := by unfold takeTurn; split <;> rfl
@[simp] theorem takeTurn_cmdl : (takeTurn s).cmdl = s.cmdl := by unfold takeTurn; split <;> rfl
@[simp] theorem takeTurn_stepCtr : (takeTurn s).stepCtr = s.stepCtr := by unfold takeTurn; split <;> rfl
@[simp] theorem takeTurn_blkCtr : (takeTurn s).blkCtr = s.blkCtr := by unfold takeTurn; split <;> rfl
@[simp] theorem takeTurn_fsm : (takeTurn s).fsm = s.fsm := by unfold takeTurn; split <;> rfl
@[simp] theorem takeTurn_mem : (takeTurn s).mem = s.mem := by unfold takeTurn; split <;> rfl
@[simp] theorem takeTurn_inputs : (takeTurn s).inputs = s.inputs := by unfold takeTurn; split <;> rfl
@[simp] theorem takeTurn_replies : (takeTurn s).replies = s.replies := by unfold takeTurn; split <;> rfl
@[simp] theorem takeTurn_draws : (takeTurn s).draws = s.draws := by unfold takeTurn; split <;> rfl

/-! ### The operands depend on MSG_BASE, MSG_LEN and MEM_SIZE alone -/

@[simp] theorem base_finish : base (finish s) = base s := rfl
@[simp] theorem len_finish : len (finish s) = len s := rfl
@[simp] theorem base_reject (c : ECode) : base (reject c s) = base s := rfl
@[simp] theorem len_reject (c : ECode) : len (reject c s) = len s := rfl
@[simp] theorem base_padEffect : base (padEffect s) = base s := rfl
@[simp] theorem len_padEffect : len (padEffect s) = len s := rfl
@[simp] theorem base_loadBlock (a : Nat) : base (loadBlock a s) = base s := rfl
@[simp] theorem len_loadBlock (a : Nat) : len (loadBlock a s) = len s := rfl
@[simp] theorem base_initH : base (initH s) = base s := rfl
@[simp] theorem len_initH : len (initH s) = len s := rfl
@[simp] theorem base_compressEffect : base (compressEffect s) = base s := rfl
@[simp] theorem len_compressEffect : len (compressEffect s) = len s := rfl
@[simp] theorem base_latchOut : base (latchOut s) = base s := rfl
@[simp] theorem len_latchOut : len (latchOut s) = len s := rfl
@[simp] theorem base_addReply (r : Reply) : base (addReply r s) = base s := rfl
@[simp] theorem len_addReply (r : Reply) : len (addReply r s) = len s := rfl
@[simp] theorem base_countDraw : base (countDraw s) = base s := rfl
@[simp] theorem len_countDraw : len (countDraw s) = len s := rfl

end Sys2Proof.Machine
end

