-- ==== Sys2Proof/Laws/Ops.lean ====
section
/-! SUPPORT. Once for each shared operation, everything it can do; what a complete step can do. -/

namespace Sys2Proof.Machine

/-! ### Padding (41_padding.md R120, R121) -/

theorem padlen_bounds (L : Nat) : 1 ≤ padlen L ∧ padlen L ≤ 64 := by
  unfold padlen
  split <;> omega

@[simp] theorem bytesLE32_length (w : Word) : (bytesLE32 w).length = 4 := rfl

@[simp] theorem zeros_length (n : Nat) : (zeros n).length = n := List.length_replicate

@[simp] theorem lengthField_length (L : Nat) : (lengthField L).length = 8 := rfl

@[simp] theorem padTail_length (L : Nat) : (padTail L).length = padlen L + 8 := by
  have := (padlen_bounds L).1
  simp only [padTail, List.cons_append, List.length_cons, List.length_append, zeros_length, lengthField_length]
  omega

/-- The tail ends where the padded buffer ends. -/
theorem base_len_tail (s : State) : base s + len s + (padTail (len s)).length = base s + paddedLen (len s) := by
  simp only [padTail_length, paddedLen]
  omega

theorem paddedLen_mod (L : Nat) : paddedLen L % 64 = 0 := by
  unfold paddedLen padlen
  split <;> omega

/-! ### Checks (30_encoding.md R104, 60_exceptions.md R221 to R225) -/

theorem checked_ok {i : Instr} {s : State} (h : errorOf i s = none) (r : Result) : checked i s r = r := by
  simp [checked, h]

theorem checked_error {i : Instr} {s : State} {c : ECode} (h : errorOf i s = some c) (r : Result) :
    checked i s r = .next (reject c s) := by
  simp [checked, h]

theorem reading_ok {i : Instr} {m : Mem} {a n : Nat} (h : Written m a n) (r : Result) : reading i m a n r = r := by
  simp [reading, (firstUnwritten_none_iff m a n).2 h]

theorem reading_fault {i : Instr} {m : Mem} {a n off : Nat} (h : firstUnwritten m a n = some off) (r : Result) :
    reading i m a n r = .fault (.uninitRead i off) := by
  simp [reading, h]

/-- A read that lets a next state through found every byte written. -/
theorem reading_next {i : Instr} {m : Mem} {a n : Nat} {r : Result} {t : State}
    (h : reading i m a n r = .next t) : Written m a n ∧ r = .next t := by
  unfold reading at h
  split at h
  · cases h
  · rename_i hn
    exact ⟨(firstUnwritten_none_iff m a n).1 hn, h⟩

/-! ### What a complete step can do -/

/-- The effect of a command that is not rejected, before its STATUS update. -/
def effectOf : Instr → State → State
  | .init, s => initH s
  | .pad, s => padEffect s
  | .loadblk n, s => loadBlock (blockBase n s) s
  | .compress, s => compressEffect s
  | .final, s => latchOut s
  | .digest, s => digestEffect (len s) s
  | .hash, s => digestEffect (paddedLen (len s)) (padEffect s)

/-- The bytes a command needs written, in the MEM it reads them from. -/
def readsWritten : Instr → State → Prop
  | .init, _ => True
  | .pad, _ => True
  | .loadblk n, s => Written s.mem (blockBase n s) 64
  | .compress, _ => True
  | .final, _ => True
  | .digest, s => Written s.mem (base s) (len s)
  | .hash, s => Written (padEffect s).mem (base s) (paddedLen (len s))

theorem errorOf_init (s : State) : errorOf .init s = none := rfl
theorem errorOf_compress (s : State) : errorOf .compress s = none := rfl
theorem errorOf_final (s : State) : errorOf .final s = none := rfl

/-- A rejected command: one write of STATUS. -/
theorem exec_rejected {i : Instr} {s : State} {c : ECode} (h : errorOf i s = some c) :
    exec i s = .next (reject c s) := by
  cases i with
  | init => cases h
  | compress => cases h
  | final => cases h
  | pad => simp only [exec, execPad, checked_error h]
  | loadblk n => simp only [exec, execLoadblk, checked_error h]
  | digest => simp only [exec, execDigest, checked_error h]
  | hash => simp only [exec, execHash, checked_error h]

/-- A command with no error that finds its bytes written: its whole effect, then DONE. -/
theorem exec_done {i : Instr} {s : State} (h : errorOf i s = none) (hw : readsWritten i s) :
    exec i s = .next (finish (effectOf i s)) := by
  cases i with
  | init => rfl
  | compress => rfl
  | final => rfl
  | pad => simp only [exec, execPad, checked_ok h, effectOf]
  | loadblk n => simp only [exec, execLoadblk, checked_ok h, reading_ok hw, effectOf]
  | digest => simp only [exec, execDigest, checked_ok h, reading_ok hw, effectOf]
  | hash => simp only [exec, execHash, checked_ok h, reading_ok hw, effectOf]

/-- Inversion of a complete step that answers a next state. -/
theorem exec_next {i : Instr} {s t : State} (h : exec i s = .next t) :
    (∃ c, errorOf i s = some c ∧ t = reject c s) ∨
      (errorOf i s = none ∧ readsWritten i s ∧ t = finish (effectOf i s)) := by
  cases he : errorOf i s with
  | some c =>
    rw [exec_rejected he] at h
    exact .inl ⟨c, rfl, by injection h with h; exact h.symm⟩
  | none =>
    have hw : readsWritten i s := by
      cases i with
      | init => trivial
      | compress => trivial
      | final => trivial
      | pad => trivial
      | loadblk n =>
        rw [exec, execLoadblk, checked_ok he] at h
        exact (reading_next h).1
      | digest =>
        rw [exec, execDigest, checked_ok he] at h
        exact (reading_next h).1
      | hash =>
        rw [exec, execHash, checked_ok he] at h
        exact (reading_next h).1
    rw [exec_done he hw] at h
    exact .inr ⟨rfl, hw, by injection h with h; exact h.symm⟩

/-! ### The block loop -/

/-- The block loop writes H, X, VL and VR alone. -/
theorem digestBlocks_frame (n a : Nat) (s : State) :
    digestBlocks n a s =
      { s with
        h := (digestBlocks n a s).h
        x := (digestBlocks n a s).x
        vl := (digestBlocks n a s).vl
        vr := (digestBlocks n a s).vr } := by
  induction n generalizing a s with
  | zero => rfl
  | succ k ih =>
    have hu := ih (a + 64) (compressEffect (loadBlock a s))
    rw [digestBlocks]
    generalize digestBlocks k (a + 64) (compressEffect (loadBlock a s)) = u at hu ⊢
    rw [hu]
    simp

/-- DIGEST's effect writes H, X, VL, VR and DOUT alone. -/
theorem digestEffect_frame (n : Nat) (s : State) :
    digestEffect n s =
      { s with
        h := (digestEffect n s).h
        x := (digestEffect n s).x
        vl := (digestEffect n s).vl
        vr := (digestEffect n s).vr
        dout := (digestEffect n s).dout } := by
  have hu := digestBlocks_frame (n / 64) (base s) (initH s)
  unfold digestEffect
  generalize digestBlocks (n / 64) (base s) (initH s) = u at hu ⊢
  rw [hu]
  simp [latchOut]

/-! ### The Host's accesses -/

/-- A register read answers a next state or BUS_ERROR. -/
theorem hostRead_next {addr width : Nat} {s t : State} (h : hostRead addr width s = .next t) :
    ∃ r, regAt s.params addr width = some r ∧ t = readReg r s := by
  unfold hostRead at h
  split at h
  · rename_i r hr
    exact ⟨r, hr, by injection h with h; exact h.symm⟩
  · cases h

/-- A register write answers a next state or BUS_ERROR. -/
theorem hostWrite_next {addr width : Nat} {v : Word} {s t : State} (h : hostWrite addr width v s = .next t) :
    ∃ r, regAt s.params addr width = some r ∧ t = writeReg v s r := by
  unfold hostWrite at h
  split at h
  · rename_i r hr
    exact ⟨r, hr, by injection h with h; exact h.symm⟩
  · cases h

/-- A MEM read that answers a next state lies inside MEM. -/
theorem hostMemRead_next {off : Nat} {s t : State} (h : hostMemRead off s = .next t) :
    off < s.params.memSize ∧ t = readMem off s := by
  unfold hostMemRead at h
  split at h
  · rename_i hoff
    exact ⟨hoff, by injection h with h; exact h.symm⟩
  · cases h

/-- A MEM write that answers a next state lies inside MEM and outside the running command's footprint. -/
theorem hostMemWrite_next {off : Nat} {b : Byte} {s t : State} (h : hostMemWrite off b s = .next t) :
    off < s.params.memSize ∧ inRunningFootprint s off = false ∧ t = { s with mem := Mem.write s.mem off b } := by
  unfold hostMemWrite at h
  split at h
  · rename_i hoff
    split at h
    · cases h
    · rename_i hf
      exact ⟨hoff, by simpa using hf, by injection h with h; exact h.symm⟩
  · cases h

/-- A register read changes the Host's variables and the draw counter, nothing else (20_memory.md R70). -/
theorem readReg_frame (r : Reg) (s : State) :
    readReg r s = { s with replies := (readReg r s).replies, draws := (readReg r s).draws } := by
  unfold readReg
  split <;> rfl

/-- A MEM read changes the Host's variables and the draw counter, nothing else (20_memory.md R70). -/
theorem readMem_frame (off : Nat) (s : State) :
    readMem off s = { s with replies := (readMem off s).replies, draws := (readMem off s).draws } := by
  unfold readMem
  split
  · rfl
  · split <;> rfl

/-! ### One step -/

/-- Who moved, when a step answers a next state. -/
theorem step_next {s t : State} (h : step s = .next t) :
    (nextAgent s = none ∧ t = s) ∨
      (nextAgent s = some .host ∧ hostStep (takeTurn s) = .next t) ∨
        (nextAgent s = some .core ∧ ∃ i, fetch s = some i ∧ exec i (takeTurn s) = .next t) := by
  unfold step at h
  split at h
  · rename_i ha
    refine .inr (.inr ⟨ha, ?_⟩)
    unfold coreStep at h
    have hf : fetch (takeTurn s) = fetch s := by
      unfold takeTurn
      split <;> rfl
    split at h
    · rename_i i hi
      exact ⟨i, hf ▸ hi, h⟩
    · cases h
  · rename_i ha
    exact .inr (.inl ⟨ha, h⟩)
  · rename_i ha
    exact .inl ⟨ha, by injection h with h; exact h.symm⟩

/-- Taking a turn changes `turns` alone. -/
theorem takeTurn_frame (s : State) : takeTurn s = { s with turns := (takeTurn s).turns } := by
  unfold takeTurn
  split <;> rfl

end Sys2Proof.Machine
end

