-- ==== Sys2Proof/Laws/Driver.lean ====
section
/-! SUPPORT. The commands' shared operations against the pure functions of 41_padding.md and 43_sequencer.md: when
a command has no error, what PAD leaves in MEM, and the block loop as a fold over the bytes. -/

namespace Sys2Proof.Machine

/-! ### Bytes and words -/

/-- A byte of a word as a quotient. -/
theorem byteOf_eq_ofNat (w : Word) (k : Nat) : byteOf w k = BitVec.ofNat 8 (w.toNat / 256 ^ k) := by
  apply BitVec.eq_of_toNat_eq
  simp [byteOf, Nat.shiftRight_eq_div_pow, Nat.pow_mul]

/-- The value of four little-endian bytes. -/
theorem le32_toNat (a b c d : Byte) : (le32 a b c d).toNat =
    a.toNat + 2^8 * b.toNat + 2^16 * c.toNat + 2^24 * d.toNat := by
  have := a.isLt; have := b.isLt; have := c.isLt; have := d.isLt
  have e : le32 a b c d = d ++ (c ++ (b ++ a)) := by
    apply BitVec.eq_of_getLsbD_eq
    intro k hk
    simp only [le32, BitVec.getLsbD_or, BitVec.getLsbD_setWidth, BitVec.getLsbD_shiftLeft, BitVec.getLsbD_append]
    by_cases h1 : k < 8
    · simp [h1, hk, show k < 16 by omega, show k < 24 by omega]
    · by_cases h2 : k < 16
      · have : a.getLsbD k = false := BitVec.getLsbD_of_ge _ _ (by omega)
        simp [h1, h2, hk, this, show k < 24 by omega, show k - 8 < 8 by omega, show k - 8 < 32 by omega]
      · by_cases h3 : k < 24
        · have : a.getLsbD k = false := BitVec.getLsbD_of_ge _ _ (by omega)
          have : b.getLsbD (k-8) = false := BitVec.getLsbD_of_ge _ _ (by omega)
          simp_all [show k - 16 < 32 by omega]
        · have : a.getLsbD k = false := BitVec.getLsbD_of_ge _ _ (by omega)
          have : b.getLsbD (k-8) = false := BitVec.getLsbD_of_ge _ _ (by omega)
          have : c.getLsbD (k-16) = false := BitVec.getLsbD_of_ge _ _ (by omega)
          simp_all [show k - 24 < 32 by omega]
  rw [e]
  have cat : ∀ {m n : Nat} (x : BitVec m) (y : BitVec n), (x ++ y).toNat = x.toNat * 2 ^ n + y.toNat := by
    intro m n x y
    rw [BitVec.toNat_append, ← Nat.shiftLeft_add_eq_or_of_lt y.isLt, Nat.shiftLeft_eq]
  rw [cat, cat, cat]
  omega

/-! ### Errors (30_encoding.md R104, 60_exceptions.md R224) -/

/-- PAD inside MEM has no error. -/
theorem errorOf_pad_none {s : State} (h : base s + paddedLen (len s) ≤ s.params.memSize) : errorOf .pad s = none := by
  simp [errorOf, unalignedLen, outOfRange, footEnd]; omega

/-- HASH inside MEM has no error. -/
theorem errorOf_hash_none {s : State} (h : base s + paddedLen (len s) ≤ s.params.memSize) : errorOf .hash s =
    none := by
  simp [errorOf, unalignedLen, outOfRange, footEnd]; omega

/-- LOADBLK inside MEM has no error. -/
theorem errorOf_loadblk_none {s : State} {n} (h : blockBase n s + 64 ≤ s.params.memSize) :
    errorOf (.loadblk n) s = none := by
  simp [errorOf, unalignedLen, outOfRange, footEnd]; omega

/-- DIGEST of whole blocks inside MEM has no error. -/
theorem errorOf_digest_none {s : State} (h0 : len s % 64 = 0) (h : base s + len s ≤ s.params.memSize) :
    errorOf .digest s = none := by
  simp [errorOf, unalignedLen, outOfRange, footEnd, h0]; omega

/-- A DIGEST with no error has whole blocks inside MEM. -/
theorem errorOf_digest_none_imp {s : State} (h : errorOf .digest s = none) : len s % 64 = 0 ∧
    base s + len s ≤ s.params.memSize := by
  by_cases h0 : len s % 64 = 0
  · by_cases h1 : s.params.memSize < base s + len s
    · simp [errorOf, unalignedLen, outOfRange, footEnd, h0, h1] at h
    · exact ⟨h0, by omega⟩
  · simp [errorOf, unalignedLen, h0] at h

/-- A HASH with no error lies inside MEM. -/
theorem errorOf_hash_none_imp {s : State} (h : errorOf .hash s = none) :
    base s + paddedLen (len s) ≤ s.params.memSize := by
  simp [errorOf, unalignedLen, outOfRange, footEnd] at h
  exact h

/-- The only errors of a complete step. -/
theorem errorOf_some_cases {i : Instr} {s : State} {c : ECode} (h : errorOf i s = some c) : (c = .unalignedLen ∧
    i = .digest) ∨ c = .range := by
  unfold errorOf at h
  cases hu : unalignedLen i s with
  | true => 
    left
    rw [hu] at h
    simp at h
    refine ⟨h.symm, ?_⟩
    cases i <;> simp [unalignedLen] at hu ⊢
  | false =>
    right
    rw [hu] at h
    cases ho : outOfRange i s with
    | true => rw [ho] at h; simp at h; exact h.symm
    | false => rw [ho] at h; simp at h

/-- A footprint that ends beyond MEM_SIZE is RANGE. -/
theorem errorOf_range {i : Instr} {s : State} {e : Nat} (hu : unalignedLen i s = false) (hf : footEnd i s =
    some e) (h : s.params.memSize < e) : errorOf i s = some .range := by
  simp [errorOf, hu, outOfRange, hf, h]

/-! ### PAD and the padded buffer (41_padding.md R126) -/

/-- The padded length as a number of blocks. -/
theorem paddedLen_eq (L : Nat) : paddedLen L = 64 * ((L + 8) / 64 + 1) := by
  unfold paddedLen padlen
  split <;> omega

/-- The bytes PAD writes. -/
theorem padTail_getElem? (L k : Nat) (hk : k < padlen L + 8) : (padTail L)[k]? =
    if k = 0 then some 0x80#8 else if k < padlen L then some 0#8 else (lengthField L)[k - padlen L]? := by
  have := padlen_bounds L
  cases k with
  | zero => simp [padTail]
  | succ j =>
    simp only [padTail, List.cons_append, List.getElem?_cons_succ, List.getElem?_append, zeros_length]
    by_cases h : j + 1 < padlen L
    · rw [if_pos (by omega), if_neg (by omega : ¬ j + 1 = 0), if_pos h, zeros, List.getElem?_replicate,
        if_pos (by omega)]
    · rw [if_neg (by omega)]; simp [h]; congr 1; omega

/-- PLEN holds the padded length: it fits in 32 bits inside MEM. -/
theorem padEffect_plen_toNat {s : State} (hm : s.params.memSize ≤ 2 ^ 32 - 64)
    (h : base s + paddedLen (len s) ≤ s.params.memSize) :
    (padEffect s).plen.toNat = paddedLen (len s) := by
  rw [padEffect_plen, BitVec.toNat_ofNat, Nat.mod_eq_of_lt (by omega)]

/-- PAD leaves what stands before the tail. -/
theorem read_padEffect_before (s : State) {off : Nat} (h : off < base s + len s) :
    Mem.read? (padEffect s).mem off = Mem.read? s.mem off := by
  rw [padEffect_mem, read_writeBytes, if_neg (by omega)]

/-- PAD leaves what stands after the tail. -/
theorem read_padEffect_after (s : State) {off : Nat} (h : base s + paddedLen (len s) ≤ off) :
    Mem.read? (padEffect s).mem off = Mem.read? s.mem off := by
  rw [padEffect_mem, read_writeBytes, if_neg (by rw [base_len_tail]; omega)]

/-- PAD writes the tail. -/
theorem read_padEffect_tail (s : State) {k : Nat} (h : k < padlen (len s) + 8) :
    Mem.read? (padEffect s).mem (base s + len s + k) = (padTail (len s))[k]? := by
  rw [padEffect_mem, read_writeBytes, if_pos (by rw [padTail_length]; omega)]
  congr 1; omega

/-- After PAD the padded buffer is written if the message was. -/
theorem written_padEffect {s : State} (hw : Written s.mem (base s) (len s)) : Written (padEffect s).mem (base s)
    (paddedLen (len s)) := by
  intro off h1 h2
  have hp : paddedLen (len s) = len s + (padlen (len s) + 8) := by unfold paddedLen; omega
  by_cases h : off < base s + len s
  · rw [read_padEffect_before s h]; exact hw off h1 h
  · have := read_padEffect_tail s (k := off - (base s + len s)) (by omega)
    rw [show base s + len s + (off - (base s + len s)) = off by omega] at this
    rw [this]
    have hl : off - (base s + len s) < (padTail (len s)).length := by rw [padTail_length]; omega
    simp [List.getElem?_eq_getElem hl]

theorem bytesAt_length (m a n) : (bytesAt m a n).length = n := by simp [bytesAt]

theorem bytesAt_getD (m : Mem) (a n o : Nat) (h : o < n) : (bytesAt m a n).getD o 0#8 = byteAt m (a + o) := by
  simp [bytesAt, List.getD_eq_getElem?_getD, h]

/-- After PAD, MEM holds the padded message. -/
theorem bytesAt_padEffect (s : State) : bytesAt (padEffect s).mem (base s) (paddedLen (len s)) =
    padMessage (bytesAt s.mem (base s) (len s)) := by
  apply List.ext_getElem?
  intro k
  have hp : paddedLen (len s) = len s + (padlen (len s) + 8) := by unfold paddedLen; omega
  rw [padMessage, List.getElem?_append, bytesAt_length]
  by_cases h1 : k < len s
  · rw [if_pos h1]
    have := read_padEffect_before s (show base s + k < base s + len s by omega)
    simp only [bytesAt, List.getElem?_map, List.getElem?_range h1,
        List.getElem?_range (show k < paddedLen (len s) by omega), Option.map_some, byteAt, this]
  · rw [if_neg h1]
    by_cases h2 : k < paddedLen (len s)
    · have := read_padEffect_tail s (k := k - len s) (by omega)
      rw [show base s + len s + (k - len s) = base s + k by omega] at this
      have hl : k - len s < (padTail (len s)).length := by rw [padTail_length]; omega
      simp only [bytesAt, List.getElem?_map, List.getElem?_range h2, Option.map_some, byteAt, this,
          List.getElem?_eq_getElem hl, Option.getD_some]
    · have hl : ¬ k - len s < (padTail (len s)).length := by rw [padTail_length]; omega
      simp [bytesAt, h2]
      rw [padTail_length] at hl; omega

/-! ### The block loop (43_sequencer.md R187, R188) -/

/-- A block of a byte list taken from MEM is the block in MEM. -/
theorem wordsAt_bytesAt (m : Mem) (B L k : Nat) (h : 64 * k + 64 ≤ L) :
    wordsAt (fun o => (bytesAt m B L).getD o 0#8) (64 * k) = blockAt m (B + 64 * k) := by
  unfold blockAt wordsAt
  congr 1
  funext i
  have := i.isLt
  simp only []
  rw [bytesAt_getD _ _ _ _ (by omega), bytesAt_getD _ _ _ _ (by omega), bytesAt_getD _ _ _ _ (by omega),
      bytesAt_getD _ _ _ _ (by omega)]
  simp only [Nat.add_assoc]

theorem compressEffect_h_eq (s : State) : (compressEffect s).h = compressFn s.h s.x := rfl

/-- The block loop folds the blocks, and leaves the last one in X. -/
theorem digestBlocks_eq_foldBytes (m : Mem) (B L : Nat) (n k : Nat) (s : State) (hm : s.mem = m) (hh : s.h =
    foldBytes (bytesAt m B L) k) (hk : 64 * (k + n) ≤ L) :
    (digestBlocks n (B + 64 * k) s).h = foldBytes (bytesAt m B L) (k + n) ∧
    (digestBlocks n (B + 64 * k) s).x = if n = 0 then s.x else blockAt m (B + 64 * (k + n) - 64) := by
  induction n generalizing k s with
  | zero => exact ⟨hh, rfl⟩
  | succ n ih =>
    rw [digestBlocks]
    have := ih (k + 1) (compressEffect (loadBlock (B + 64 * k) s)) (by simpa using hm)
      (by rw [compressEffect_h_eq, loadBlock_h, loadBlock_x, hh, hm, foldBytes,
          wordsAt_bytesAt _ _ _ _ (by omega)]) (by omega)
    rw [show B + 64 * k + 64 = B + 64 * (k + 1) by omega]
    refine ⟨by rw [this.1]; congr 1; omega, ?_⟩
    rw [this.2]
    split
    · subst n; simp only [compressEffect_x, loadBlock_x, hm, if_neg (Nat.succ_ne_zero 0)]; congr 1
    · rw [if_neg (by omega)]; congr 1; omega

/-- A change that no part of the loop sees passes through it. -/
theorem digestBlocks_commutes (n a : Nat) (s : State) (f : State → State)
    (hf1 : ∀ u b, loadBlock b (f u) = f (loadBlock b u)) (hf2 : ∀ u, compressEffect (f u) = f (compressEffect u)) :
    digestBlocks n a (f s) = f (digestBlocks n a s) := by
  induction n generalizing a s with
  | zero => rfl
  | succ k ih => rw [digestBlocks, hf1, hf2, ih, digestBlocks]

/-- No effect touches STATUS. -/
theorem effectOf_status (i : Instr) (s : State) : (effectOf i s).status = s.status := by
  cases i with
  | digest => rw [effectOf, digestEffect_frame]
  | hash =>
    rw [effectOf, digestEffect_frame]
    rfl
  | _ => rfl

/-- What a DIGEST with no error leaves in H and DOUT. -/
theorem digest_next_h {s t : State} (h : exec .digest s = .next t) (he : errorOf .digest s = none) :
    t.h = foldBytes (bytesAt s.mem (base s) (len s)) (len s / 64) ∧ t.dout = t.h := by
  rcases exec_next h with ⟨c, hc, _⟩ | ⟨_, _, rfl⟩
  · rw [he] at hc; cases hc
  · have := errorOf_digest_none_imp he
    have hl := digestBlocks_eq_foldBytes s.mem (base s) (len s) (len s / 64) 0 (initH s) rfl rfl (by omega)
    simp only [Nat.mul_zero, Nat.add_zero, Nat.zero_add] at hl
    exact ⟨hl.1, rfl⟩

/-- What a HASH with no error leaves in H and DOUT. -/
theorem hash_next_h {s t : State} (h : exec .hash s = .next t) (he : errorOf .hash s = none) :
    t.h = foldBytes (padMessage (bytesAt s.mem (base s) (len s))) (paddedLen (len s) / 64) ∧ t.dout = t.h := by
  rcases exec_next h with ⟨c, hc, _⟩ | ⟨_, _, rfl⟩
  · rw [he] at hc; cases hc
  · have hP := paddedLen_mod (len s)
    have hl := digestBlocks_eq_foldBytes (padEffect s).mem (base s) (paddedLen (len s))
        (paddedLen (len s) / 64) 0 (initH (padEffect s)) rfl rfl (by omega)
    simp only [Nat.mul_zero, Nat.add_zero, Nat.zero_add] at hl
    rw [bytesAt_padEffect] at hl
    exact ⟨hl.1, rfl⟩

end Sys2Proof.Machine
end

