-- ==== Sys2Proof/Laws/HostPort.lean ====
section
/-! SUPPORT. The register window by offsets, and what a Host may find in a byte while a command runs. -/

namespace Sys2Proof.Machine

/-! ### The register window (30_encoding.md R95, R96) -/

/-- An aligned 32-bit access inside the window reaches its slot. -/
theorem regAt_base_add (p : Params) (off : Nat) (h : off < 128) (h4 : off % 4 = 0) :
    regAt p (p.regBase + off) 32 = some (slotReg (off / 4)) := by
  unfold regAt
  rw [if_pos ⟨by omega, by omega, by omega, rfl⟩]
  congr 3; omega

theorem slotReg_h (i : Fin 4) : slotReg ((0x20 + 4 * i.val) / 4) = .h i := by revert i; decide

theorem slotReg_dout (i : Fin 4) : slotReg ((0x30 + 4 * i.val) / 4) = .dout i := by revert i; decide

theorem slotReg_x (i : Fin 16) : slotReg ((0x40 + 4 * i.val) / 4) = .x i := by revert i; decide

/-- A register write at an offset of the window. -/
theorem access_regWrite (s : State) (v) : ∀ off, off < 128 → off % 4 = 0 →
    access (.regWrite (s.params.regBase + off) 32 v) s = .next (writeReg v s (slotReg (off/4))) := by
  intro off h1 h2
  simp [access, hostWrite, regAt_base_add _ _ h1 h2]

/-- A register read at an offset of the window. -/
theorem access_regRead (s : State) : ∀ off, off < 128 → off % 4 = 0 →
    access (.regRead (s.params.regBase + off) 32) s = .next (readReg (slotReg (off / 4)) s) := by
  intro off h1 h2
  simp [access, hostRead, regAt_base_add _ _ h1 h2]

/-! ### Reads of the write set (20_memory.md R79) -/

/-- The byte a running command leaves in its write set is the one its complete step writes. -/
theorem byteAfter_exec {s t : State} {i : Instr} {off : Nat} (hr : inRange (writeRange i s) off = true)
    (h : exec i s = .next t) :
    byteAfter i s off = Mem.read? t.mem off := by
  have hw : ∀ u : State, inRange (base s + len s, base s + paddedLen (len s)) off = true →
      Mem.read? (Mem.writeBytes s.mem (base s + len s) (padTail (len s))) off =
      (padTail (len s))[off - (base s + len s)]? := by
    intro u hin
    rw [inRange_iff] at hin
    rw [read_writeBytes, if_pos]
    rw [base_len_tail]; exact hin
  rcases exec_next h with ⟨c, hc, rfl⟩ | ⟨hn, _, rfl⟩
  · simp [byteAfter, hc]
  · simp only [byteAfter, hn, Option.isNone_none, if_true]
    cases i with
    | pad => exact (hw s hr).symm
    | hash =>
      simp only [effectOf, finish_mem]
      rw [digestEffect_frame]
      exact (hw s hr).symm
    | _ => simp [writeRange, inRange] at hr

/-! ### Which agent moves -/

/-- The Core moves only while BUSY = 1. -/
theorem busy_of_nextAgent_core {s : State} (h : nextAgent s = some .core) : s.status.busy = true := by
  unfold nextAgent at h; split at h
  · assumption
  · split at h <;> cases h

end Sys2Proof.Machine
end

