-- ==== Sys2Proof/Laws/PerInstr.lean ====
section
/-! SUPPORT. Per command: the fields of its word (30_encoding.md R90 to R94). -/

namespace Sys2Proof.Laws.WordFields

/-- OP is the command's row of 30_encoding.md R91, RSV is 0, IMM is LOADBLK's n and 0 otherwise (R92, R93). -/
def Statement (i : Instr) : Prop :=
  i.wellFormed = true →
    rsvField (encode i) = 0#4 ∧
      match i with
      | .init => opField (encode i) = 1#4 ∧ immField (encode i) = 0#24
      | .pad => opField (encode i) = 2#4 ∧ immField (encode i) = 0#24
      | .loadblk n => opField (encode i) = 3#4 ∧ (immField (encode i)).toNat = n
      | .compress => opField (encode i) = 4#4 ∧ immField (encode i) = 0#24
      | .final => opField (encode i) = 5#4 ∧ immField (encode i) = 0#24
      | .digest => opField (encode i) = 6#4 ∧ immField (encode i) = 0#24
      | .hash => opField (encode i) = 7#4 ∧ immField (encode i) = 0#24

theorem init : Statement .init := fun _ => by decide

theorem pad : Statement .pad := fun _ => by decide

theorem loadblk (n : Nat) : Statement (.loadblk n) := by
  intro h
  have hn : n ≤ 0xFFFFFF := by simpa [Instr.wellFormed] using h
  have hop : opField (encode (.loadblk n)) = 3#4 := by
    apply BitVec.eq_of_getLsbD_eq
    intro k hk
    have : k = 0 ∨ k = 1 ∨ k = 2 ∨ k = 3 := by omega
    rcases this with rfl | rfl | rfl | rfl <;> simp [opField, encode]
  have hrsv : rsvField (encode (.loadblk n)) = 0#4 := by
    apply BitVec.eq_of_getLsbD_eq
    intro k hk
    have : k = 0 ∨ k = 1 ∨ k = 2 ∨ k = 3 := by omega
    rcases this with rfl | rfl | rfl | rfl <;> simp [rsvField, encode]
  have himm : immField (encode (.loadblk n)) = BitVec.ofNat 24 n := by
    apply BitVec.eq_of_getLsbD_eq
    intro k hk
    have hb : Nat.testBit 3 (8 + k) = false :=
      Nat.testBit_lt_two_pow (Nat.lt_of_lt_of_le (by decide : 3 < 2 ^ 8) (Nat.pow_le_pow_right (by decide)
          (by omega)))
    simp only [immField, encode, BitVec.getLsbD_extractLsb', BitVec.getLsbD_or, BitVec.getLsbD_shiftLeft,
      BitVec.getLsbD_ofNat]
    simp [hk, show 8 + k < 32 by omega, show k < 32 by omega, hb]
  refine ⟨hrsv, hop, ?_⟩
  rw [himm, BitVec.toNat_ofNat]
  exact Nat.mod_eq_of_lt (by omega)

theorem compress : Statement .compress := fun _ => by decide

theorem final : Statement .final := fun _ => by decide

theorem digest : Statement .digest := fun _ => by decide

theorem hash : Statement .hash := fun _ => by decide

end Sys2Proof.Laws.WordFields
end

