-- ==== Sys2Proof/Laws/Safety.lean ====
section
/-! SUPPORT. What the invariant depends on, and the STATUS of a running command. -/

namespace Sys2Proof.Machine

/-- The invariant depends on the parameters, MEM, STATUS, CMDL, PLEN and the FSM state alone. -/
theorem State.Inv.of_same {s t : State} (h : State.Inv s) (hp : t.params = s.params) (hm : t.mem = s.mem)
    (hs : t.status = s.status) (hc : t.cmdl = s.cmdl) (hl : t.plen = s.plen) (hf : t.fsm = s.fsm) : State.Inv t where
  params := hp ▸ h.params
  memForm := hm ▸ h.memForm
  memInside := by rw [hm, hp]; exact h.memInside
  status := hs ▸ h.status
  latch := by rw [hs, hc]; exact h.latch
  plenAligned := hl ▸ h.plenAligned
  plenFits := by rw [hl, hp]; exact h.plenFits
  fsm := hf ▸ h.fsm

/-- While BUSY = 1 a coherent STATUS has DONE = 0, ERR = 0 and ECODE = 0 (10_state.md R26). -/
theorem Status.coherent_busy {s : Status} (hb : s.busy = true) (h : s.coherent = true) :
    s.done = false ∧ s.err = false ∧ s.ecode = .none := by
  simp only [Status.coherent, hb, Bool.and_eq_true] at h
  obtain ⟨⟨h, _⟩, _⟩ := h
  simpa [and_assoc] using h

end Sys2Proof.Machine
end

