-- ==== Sys2Proof/Laws/ReferenceFsm.lean ====
section
/-! SUPPORT. Once for each loop of the reference sequencer, everything its transitions do: PADW, LOAD, RND, and the
block loop. -/

namespace Sys2Proof.Machine

/-! ### Runs of transitions -/

/-- Transitions after a next state. -/
theorem fsmRun_add {i : Instr} {m : Nat} {s t : State} (h : fsmRun i m s = .next t) (n : Nat) :
    fsmRun i (m + n) s = fsmRun i n t := by
  induction m generalizing s with
  | zero =>
    injection h with h
    subst h
    rw [Nat.zero_add]
  | succ m ih =>
    rw [Nat.add_right_comm, fsmRun]
    rw [fsmRun] at h
    cases hm : fsmMove i s with
    | next u =>
      rw [hm] at h
      exact ih h
    | fault f =>
      rw [hm] at h
      cases h
    | refused r =>
      rw [hm] at h
      cases h

/-- A fault stays. -/
theorem fsmRun_fault {i : Instr} {m : Nat} {s : State} {f : Fault} (h : fsmRun i m s = .fault f) (n : Nat) :
    fsmRun i (m + n) s = .fault f := by
  induction m generalizing s with
  | zero => cases h
  | succ m ih =>
    rw [Nat.add_right_comm, fsmRun]
    rw [fsmRun] at h
    cases hm : fsmMove i s with
    | next u =>
      rw [hm] at h
      exact ih h
    | fault g =>
      rw [hm] at h
      exact h
    | refused r =>
      rw [hm] at h
      cases h

/-- One transition, then the rest. -/
theorem fsmRun_next {i : Instr} {s t : State} (h : fsmMove i s = .next t) (n : Nat) :
    fsmRun i (n + 1) s = fsmRun i n t := by
  rw [fsmRun, h]

/-- Transitions after reads that may fault. -/
theorem fsmRun_reading {i : Instr} {m a k : Nat} {c : Mem} {s t : State}
    (h : fsmRun i m s = reading i c a k (.next t)) (n : Nat) :
    fsmRun i (m + n) s = reading i c a k (fsmRun i n t) := by
  unfold reading at h ⊢
  cases hf : firstUnwritten c a k with
  | none =>
    rw [hf] at h
    exact fsmRun_add h n
  | some off =>
    rw [hf] at h
    exact fsmRun_fault h n

/-! ### Reads in two parts -/

theorem firstUnwritten_add (m : Mem) (a j k : Nat) :
    firstUnwritten m a (j + k) = (firstUnwritten m a j).or (firstUnwritten m (a + j) k) := by
  induction j generalizing a with
  | zero => simp [firstUnwritten]
  | succ j ih =>
    rw [Nat.add_right_comm, firstUnwritten, firstUnwritten]
    split
    · rfl
    · rw [ih, Nat.add_right_comm, Nat.add_assoc]

/-- Reading a range is reading its first part and then the rest. -/
theorem reading_add (i : Instr) (m : Mem) (a j k : Nat) (r : Result) :
    reading i m a (j + k) r = reading i m a j (reading i m (a + j) k r) := by
  unfold reading
  rw [firstUnwritten_add]
  cases firstUnwritten m a j <;> rfl

theorem reading_zero (i : Instr) (m : Mem) (a : Nat) (r : Result) : reading i m a 0 r = r := rfl

/-! ### PADW -/

theorem afterPadw_fsm (i : Instr) (s : State) (f : Fsm) : afterPadw i { s with fsm := f } = afterPadw i s := by
  cases i <;> rfl

/-- PADW from tail byte k on: the rest of the tail and PLEN. -/
theorem fsmRun_padw (i : Instr) (n k : Nat) (s : State) (hk : k + n = (padTail (len s)).length) (hn : 0 < n)
    (hf : s.fsm = .padw k) :
    fsmRun i n s =
      .next (afterPadw i { s with
        mem := Mem.writeBytes s.mem (base s + len s + k) ((padTail (len s)).drop k)
        plen := BitVec.ofNat 32 (paddedLen (len s)) }) := by
  induction n generalizing k s with
  | zero => omega
  | succ n ih =>
    have hm : fsmMove i s = .next (fsmPadw i k s) := by rw [fsmMove, hf]
    have hlt : k < (padTail (len s)).length := by omega
    have hg : (padTail (len s)).getD k 0#8 = (padTail (len s))[k] := by
      rw [List.getD_eq_getElem?_getD, List.getElem?_eq_getElem hlt, Option.getD_some]
    rw [fsmRun_next hm, fsmPadw, hg, List.drop_eq_getElem_cons hlt, Mem.writeBytes]
    by_cases h1 : k + 1 < (padTail (len s)).length
    · rw [if_pos h1]
      refine (ih (k + 1) _ ?_ (by omega) rfl).trans ?_
      · show k + 1 + n = (padTail (len s)).length
        omega
      · rw [← afterPadw_fsm i _ (.padw (k + 1))]
        rfl
    · have h0 : n = 0 := by omega
      subst h0
      rw [if_neg h1, List.drop_eq_nil_of_le (by omega)]
      rfl

/-! ### LOAD -/

/-- X after the n bytes of LOAD from byte k. -/
def assembled (m : Mem) (a k n : Nat) (x : Block) : Block :=
  match n with
  | 0 => x
  | r + 1 => assembled m a (k + 1) r (assembleByte k (byteAt m (a + k)) x)

theorem assembled_add (m : Mem) (a k n p : Nat) (x : Block) :
    assembled m a k (n + p) x = assembled m a (k + n) p (assembled m a k n x) := by
  induction n generalizing k x with
  | zero => rw [Nat.zero_add, Nat.add_zero, assembled]
  | succ n ih =>
    rw [Nat.add_right_comm, assembled, ih, assembled]
    congr 1
    omega

/-- Four bytes make one word. -/
theorem assembled_word (m : Mem) (a : Nat) (x : Block) (r : Fin 16) :
    assembled m a (4 * r) 4 x = x.set r (blockAt m a)[r] := by
  have h0 : (4 * r.val) / 4 = r.val ∧ (4 * r.val + 1) / 4 = r.val ∧ (4 * r.val + 1 + 1) / 4 = r.val ∧
      (4 * r.val + 1 + 1 + 1) / 4 = r.val := by omega
  have h1 : (4 * r.val) % 4 = 0 ∧ (4 * r.val + 1) % 4 = 1 ∧ (4 * r.val + 1 + 1) % 4 = 2 ∧
      (4 * r.val + 1 + 1 + 1) % 4 = 3 := by omega
  simp [assembled, assembleByte, h0, h1, blockAt, wordsAt, le32, Nat.add_assoc]

/-- Sixty-four bytes make the block. -/
theorem assembled_block (m : Mem) (a : Nat) (x : Block) : assembled m a 0 64 x = blockAt m a := by
  have key : ∀ r, r ≤ 16 → ∀ (j : Nat) (hj : j < 16),
      (assembled m a 0 (4 * r) x)[j] = if j < r then (blockAt m a)[j] else x[j] := by
    intro r
    induction r with
    | zero =>
      intro _ j hj
      rw [if_neg (by omega)]
      rfl
    | succ r ih =>
      intro hr j hj
      rw [Nat.mul_succ, assembled_add, Nat.zero_add, assembled_word m a _ ⟨r, by omega⟩, Vector.getElem_set]
      by_cases h : r = j
      · subst h
        rw [if_pos rfl, if_pos (by omega)]
        rfl
      · rw [if_neg h, ih (by omega) j hj]
        by_cases h2 : j < r
        · rw [if_pos h2, if_pos (by omega)]
        · rw [if_neg h2, if_neg (by omega)]
  apply Vector.ext
  intro j hj
  have := key 16 (by omega) j hj
  rw [if_pos hj] at this
  exact this

/-- LOAD from byte k on: it reads the rest of the block into X, or faults at the first unwritten byte. -/
theorem fsmRun_load (i : Instr) (n k : Nat) (s : State) (hk : k + n = 64) (hn : 0 < n) (hf : s.fsm = .load k) :
    fsmRun i n s =
      reading i s.mem (blockBase s.blkCtr s + k) n
        (.next { s with x := assembled s.mem (blockBase s.blkCtr s) k n s.x, fsm := afterLoad i }) := by
  induction n generalizing k s with
  | zero => omega
  | succ n ih =>
    have hm : fsmMove i s = fsmLoad i k s := by rw [fsmMove, hf]
    rw [Nat.add_comm n 1, reading_add, Nat.add_comm 1 n, fsmRun, hm, fsmLoad]
    cases hu : firstUnwritten s.mem (blockBase s.blkCtr s + k) 1 with
    | some off => simp only [reading, hu]
    | none =>
      simp only [reading, hu]
      by_cases h1 : k + 1 < 64
      · rw [ih (k + 1) _ (by omega) (by omega) (by rw [if_pos h1])]
        rfl
      · have h0 : n = 0 := by omega
        subst h0
        rw [if_neg h1]
        rfl

/-- LOAD from its first byte: `X <- block(a)`. -/
theorem fsmRun_load_block (i : Instr) (s : State) (hf : s.fsm = .load 0) :
    fsmRun i 64 s =
      reading i s.mem (blockBase s.blkCtr s) 64
        (.next { loadBlock (blockBase s.blkCtr s) s with fsm := afterLoad i }) := by
  rw [fsmRun_load i 64 0 s (by omega) (by omega) hf, assembled_block, Nat.add_zero, loadBlock]

/-! ### RND -/

/-- RND: the remaining steps of both lanes. -/
theorem fsmRun_rnd (i : Instr) (h : Quad) (n : Nat) (s : State) (hj : s.stepCtr + n = 64) (hn : 0 < n)
    (hf : s.fsm = .rnd) (hl : s.vl = (lanesAfter h s.x s.stepCtr).1) (hr : s.vr = (lanesAfter h s.x s.stepCtr).2) :
    fsmRun i n s =
      .next { s with
        vl := (lanesAfter h s.x (s.stepCtr + n)).1
        vr := (lanesAfter h s.x (s.stepCtr + n)).2
        stepCtr := s.stepCtr + n
        fsm := .comb } := by
  induction n generalizing s with
  | zero => omega
  | succ n ih =>
    have hm : fsmMove i s = .next (fsmRnd s) := by rw [fsmMove, hf]
    rw [fsmRun_next hm]
    by_cases h0 : n = 0
    · subst h0
      have h1 : ¬ s.stepCtr + 1 < 64 := by omega
      rw [fsmRun, fsmRnd, if_neg h1, hl, hr]
      rfl
    · have h1 : s.stepCtr + 1 < 64 := by omega
      have := ih (fsmRnd s) (by show s.stepCtr + 1 + n = 64; omega) (by omega) (by rw [fsmRnd, if_pos h1])
        (by show rfStep .left s.stepCtr s.vl s.x = _; rw [hl]; rfl)
        (by show rfStep .right s.stepCtr s.vr s.x = _; rw [hr]; rfl)
      rw [this]
      simp only [fsmRnd, Nat.add_assoc, Nat.add_comm 1 n]

/-- LINIT and RND: the lanes of a compression. -/
theorem fsmRun_lanes (i : Instr) (s : State) (hf : s.fsm = .linit) :
    fsmRun i 65 s =
      .next { s with
        vl := (lanesAfter s.h s.x 64).1
        vr := (lanesAfter s.h s.x 64).2
        stepCtr := 64
        fsm := .comb } := by
  have hm : fsmMove i s = .next { s with vl := s.h, vr := s.h, stepCtr := 0, fsm := .rnd } := by rw [fsmMove, hf]
  rw [show 65 = 64 + 1 from rfl, fsmRun_next hm, fsmRun_rnd i s.h 64 _ rfl (by omega) rfl rfl rfl]

/-! ### The block loop -/

/-- DIGEST and HASH, the commands whose blocks the sequencer counts. -/
def loops : Instr → Prop
  | .digest | .hash => True
  | .init | .pad | .loadblk _ | .compress | .final => False

/-- s with the sequencer's own state set. -/
def moved (c b : Nat) (f : Fsm) (s : State) : State := { s with stepCtr := c, blkCtr := b, fsm := f }

theorem moved_loadBlock (c b a : Nat) (f : Fsm) (s : State) :
    loadBlock a (moved c b f s) = moved c b f (loadBlock a s) := by
  simp only [moved, loadBlock]

theorem moved_compressEffect (c b : Nat) (f : Fsm) (s : State) :
    compressEffect (moved c b f s) = moved c b f (compressEffect s) := by
  simp only [moved, compressEffect]

theorem moved_moved (c b c' b' : Nat) (f f' : Fsm) (s : State) :
    moved c b f (moved c' b' f' s) = moved c b f s := by
  simp only [moved]

theorem blockCount_congr (i : Instr) {u v : State} (h : u.msgLen = v.msgLen) : blockCount i u = blockCount i v := by
  cases i <;> simp only [blockCount, len, h]

/-- LINIT, RND and COMB: one compression and the count of it. -/
theorem fsmRun_compress (i : Instr) (hi : loops i) (k n : Nat) (s : State) (hf : s.fsm = .linit)
    (hk : s.blkCtr = k) (hn : blockCount i s = n) :
    fsmRun i 66 s =
      .next (moved 64 (k + 1) (if k + 1 < n then .load 0 else .latch) (compressEffect s)) := by
  subst hk hn
  have hc : ∀ u : State, u.msgLen = s.msgLen → fsmComb i u = { u with
      h := combine u.h u.vl u.vr
      blkCtr := u.blkCtr + 1
      fsm := if u.blkCtr + 1 < blockCount i s then .load 0 else .latch } := by
    intro u hu
    rw [← blockCount_congr i hu]
    cases i <;> first | rfl | exact hi.elim
  have hm : ∀ u : State, u.fsm = .comb → fsmRun i 1 u = .next (fsmComb i u) := by
    intro u hu
    rw [fsmRun_next (show fsmMove i u = .next (fsmComb i u) by rw [fsmMove, hu])]
    rfl
  rw [show 66 = 65 + 1 from rfl, fsmRun_add (fsmRun_lanes i s hf), hm, hc]
  · simp only [compressEffect, moved]
  · simp only
  · simp only

/-- One block of the loop: LOAD, LINIT, RND and COMB. -/
theorem fsmRun_block (i : Instr) (hi : loops i) (s : State) (hf : s.fsm = .load 0) :
    fsmRun i 130 s =
      reading i s.mem (blockBase s.blkCtr s) 64
        (.next (moved 64 (s.blkCtr + 1) (if s.blkCtr + 1 < blockCount i s then .load 0 else .latch)
          (compressEffect (loadBlock (blockBase s.blkCtr s) s)))) := by
  have hl : afterLoad i = .linit := by cases i <;> first | rfl | exact hi.elim
  rw [show 130 = 64 + 66 from rfl, fsmRun_reading (fsmRun_load_block i s hf), hl, fsmRun_compress i hi s.blkCtr (blockCount i s)]
  · simp only [compressEffect, loadBlock, moved]
  · simp only
  · simp only [loadBlock]
  · exact blockCount_congr i (by simp only [loadBlock])

/-- The block loop from block BLK on, with n blocks left: the reads in order, and the effect of n blocks. -/
theorem fsmRun_blocks (i : Instr) (hi : loops i) (n : Nat) (s : State) (hn : 0 < n) (hf : s.fsm = .load 0)
    (hb : s.blkCtr + n = blockCount i s) :
    fsmRun i (130 * n) s =
      reading i s.mem (blockBase s.blkCtr s) (64 * n)
        (.next (moved 64 (s.blkCtr + n) .latch (digestBlocks n (blockBase s.blkCtr s) s))) := by
  induction n generalizing s with
  | zero => omega
  | succ n ih =>
    rw [Nat.mul_succ, Nat.add_comm (130 * n), fsmRun_reading (fsmRun_block i hi s hf), Nat.mul_succ,
      Nat.add_comm (64 * n), reading_add, digestBlocks]
    congr 1
    by_cases h0 : n = 0
    · subst h0
      rw [if_neg (by omega)]
      rfl
    · rw [if_pos (by omega)]
      generalize hu : compressEffect (loadBlock (blockBase s.blkCtr s) s) = u
      have hmem : (moved 64 (s.blkCtr + 1) (.load 0) u).mem = s.mem := by rw [← hu, moved]; simp
      have hml : (moved 64 (s.blkCtr + 1) (.load 0) u).msgLen = s.msgLen := by rw [← hu, moved]; simp
      have hmb : base (moved 64 (s.blkCtr + 1) (.load 0) u) = base s := by rw [← hu, base, moved]; simp [base]
      have hblk : (moved 64 (s.blkCtr + 1) (.load 0) u).blkCtr = s.blkCtr + 1 := by rw [moved]
      have hfsm : (moved 64 (s.blkCtr + 1) (.load 0) u).fsm = .load 0 := by rw [moved]
      have hcnt := blockCount_congr i hml
      have ha : blockBase (s.blkCtr + 1) (moved 64 (s.blkCtr + 1) (.load 0) u) = blockBase s.blkCtr s + 64 := by
        rw [blockBase, blockBase, hmb]
        omega
      rw [ih _ (by omega) hfsm (by rw [hblk, hcnt]; omega), hblk, ha, hmem,
        digestBlocks_commutes n _ u _ (fun v b => moved_loadBlock _ _ b _ v) (fun v => moved_compressEffect _ _ _ v),
        moved_moved, Nat.add_assoc, Nat.add_comm 1 n]

end Sys2Proof.Machine
end

