-- ==== Sys2Proof/Machine/Assembler.lean ====
section
/-! DEFINITION. The assembler syntax of commands (30_encoding.md R110). -/

namespace Sys2Proof.Machine

/-- A decimal digit. -/
def decDigit (c : Char) : Option Nat :=
  if '0' ≤ c ∧ c ≤ '9' then some (c.toNat - '0'.toNat) else none

/-- A hexadecimal digit of either case (log entry 20). -/
def hexDigit (c : Char) : Option Nat :=
  if '0' ≤ c ∧ c ≤ '9' then some (c.toNat - '0'.toNat)
  else if 'a' ≤ c ∧ c ≤ 'f' then some (c.toNat - 'a'.toNat + 10)
  else if 'A' ≤ c ∧ c ≤ 'F' then some (c.toNat - 'A'.toNat + 10)
  else none

/-- Decimal digits after a value read so far. -/
def decNumber (acc : Nat) : List Char → Option Nat
  | [] => some acc
  | c :: cs => match decDigit c with
    | some d => decNumber (10 * acc + d) cs
    | none => none

/-- Hexadecimal digits after a value read so far. -/
def hexNumber (acc : Nat) : List Char → Option Nat
  | [] => some acc
  | c :: cs => match hexDigit c with
    | some d => hexNumber (16 * acc + d) cs
    | none => none

/-- A decimal or 0x hexadecimal integer of at least one digit (30_encoding.md R110). -/
def number : List Char → Option Nat
  | [] => none
  | '0' :: 'x' :: [] => none
  | '0' :: 'x' :: c :: cs => hexNumber 0 (c :: cs)
  | c :: cs => decNumber 0 (c :: cs)

/-- The command of a mnemonic with its operand text (30_encoding.md R110): upper case, and n in 0 .. 0xFFFFFF. -/
def assemble : List Char → Option Instr
  | ['I', 'N', 'I', 'T'] => some .init
  | ['P', 'A', 'D'] => some .pad
  | 'L' :: 'O' :: 'A' :: 'D' :: 'B' :: 'L' :: 'K' :: ' ' :: cs =>
    (number cs).bind fun n => if n ≤ 0xFFFFFF then some (.loadblk n) else none
  | ['C', 'O', 'M', 'P', 'R', 'E', 'S', 'S'] => some .compress
  | ['F', 'I', 'N', 'A', 'L'] => some .final
  | ['D', 'I', 'G', 'E', 'S', 'T'] => some .digest
  | ['H', 'A', 'S', 'H'] => some .hash
  | _ => none

/-- The command word of an assembler line (30_encoding.md R110). -/
def assembleWord (cs : List Char) : Option Word := (assemble cs).map encode

end Sys2Proof.Machine
end

