-- ==== Sys2Proof/Machine/HostProgram.lean ====
section
/-! DEFINITION. The Host statements of 30_encoding.md R111 to R113 as lists of accesses; HostControl has the Host's own
variables and control flow (log entry 9). -/

namespace Sys2Proof.Machine

/-- A digit below n, as an index. -/
def indexDigit (n : Nat) [NeZero n] (c : Char) : Option (Fin n) :=
  (decDigit c).bind fun d => if d < n then some (Fin.ofNat n d) else none

/-- `<reg>`: a register's name, such as `H2` or `X15` (30_encoding.md R95, R111). -/
def regNamed : List Char → Option Reg
  | ['C', 'M', 'D'] => some .cmd
  | ['S', 'T', 'A', 'T', 'U', 'S'] => some .status
  | ['M', 'S', 'G', '_', 'B', 'A', 'S', 'E'] => some .msgBase
  | ['M', 'S', 'G', '_', 'L', 'E', 'N'] => some .msgLen
  | ['P', 'L', 'E', 'N'] => some .plen
  | ['H', c] => (indexDigit 4 c).map .h
  | ['D', 'O', 'U', 'T', c] => (indexDigit 4 c).map .dout
  | ['X', c] => (indexDigit 10 c).map fun d => .x (Fin.ofNat 16 d)
  | ['X', '1', c] => (indexDigit 6 c).map fun d => .x (Fin.ofNat 16 (10 + d))
  | _ => none

/-- `WR <reg>, <value>` (30_encoding.md R111). -/
def wr (p : Params) (r : Reg) (v : Word) : List Input := [.regWrite (p.regBase + regOffset r) 32 v]

/-- `WR <offset>, <value>` (30_encoding.md R111). -/
def wrOffset (p : Params) (off : Nat) (v : Word) : List Input := [.regWrite (p.regBase + off) 32 v]

/-- `RD <reg>` (30_encoding.md R111): the value becomes the newest reply. -/
def rd (p : Params) (r : Reg) : List Input := [.regRead (p.regBase + regOffset r) 32]

/-- `RD <offset>` (30_encoding.md R111). -/
def rdOffset (p : Params) (off : Nat) : List Input := [.regRead (p.regBase + off) 32]

/-- `MEMW <offset>, [b0, b1, ...]` (30_encoding.md R111). -/
def memw (off : Nat) (bs : List Byte) : List Input :=
  match bs with
  | [] => []
  | b :: rest => .memWrite off b :: memw (off + 1) rest

/-- The bytes of an ASCII text. -/
def ascii (t : String) : List Byte := t.toList.map fun c => BitVec.ofNat 8 c.toNat

/-- `MEMW <offset>, "<ascii>"` (30_encoding.md R111). -/
def memwText (off : Nat) (t : String) : List Input := memw off (ascii t)

/-- `MEMR <offset>, <n>` (30_encoding.md R111). -/
def memr (off n : Nat) : List Input := (List.range n).map fun k => .memRead (off + k)

/-- `RUN <command>` (30_encoding.md R113). -/
def run (p : Params) (i : Instr) : List Input := wr p .cmd (encode i) ++ [.poll]

/-- `SETBUF <base>, <len>` (30_encoding.md R113). -/
def setbuf (p : Params) (b l : Word) : List Input := wr p .msgBase b ++ wr p .msgLen l

/-- `PADLEN` (30_encoding.md R113), v being the Host variable p that RD PLEN sets. -/
def padlenRun (p : Params) (v : Word) : List Input := run p .pad ++ rd p .plen ++ wr p .msgLen v

end Sys2Proof.Machine
end

