-- ==== Sys2Proof/Machine/HostControl.lean ====
section
/-! DEFINITION. A Host that runs a program of 30_encoding.md R111 to R113, beside the block: its variables, its
labels, `if` and `goto`. `step` does not use it: it hands its accesses to `State.inputs` one statement at a time
(log entry 9). -/

namespace Sys2Proof.Machine

/-- What a Host variable holds: an integer, or the bytes of a MEMR (30_encoding.md R111). -/
inductive HostValue where
  | int (n : Nat)
  | bytes (bs : List Byte)
  deriving DecidableEq, Repr

/-- The arithmetic of the programs of 95_test_vectors.md, on integers without bound. -/
inductive HostExpr where
  | lit (n : Nat)
  | var (name : String)
  | add (a b : HostExpr)
  | mul (a b : HostExpr)
  | or (a b : HostExpr)
  | shl (a : HostExpr) (k : Nat)
  /-- `a[k]`, bit k. -/
  | bit (a : HostExpr) (k : Nat)
  deriving DecidableEq, Repr

/-- The condition of an `if`. -/
inductive HostCond where
  | eq (a b : HostExpr)
  | lt (a b : HostExpr)
  deriving DecidableEq, Repr

/-- A statement of a Host program (30_encoding.md R111). -/
inductive HostStmt where
  /-- `WR <offset>, <value>`; of a register by its name, the offset is `regOffset`. -/
  | wr (off : Nat) (value : HostExpr)
  /-- `RD <offset> -> <name>`. -/
  | rd (off : Nat) (name : String)
  /-- `MEMW <offset>, [b0, b1, ...]`. -/
  | memw (off : Nat) (bs : List Byte)
  /-- `MEMR <offset>, <n> -> <name>`. -/
  | memr (off n : Nat) (name : String)
  /-- `<name> <- <value>`. -/
  | assign (name : String) (value : HostExpr)
  /-- `name:`. -/
  | label (name : String)
  /-- `goto <name>`. -/
  | goto (name : String)
  /-- `if <condition> goto <name>`. -/
  | ifGoto (c : HostCond) (name : String)
  deriving DecidableEq, Repr

/-- The variable a read in progress goes to: one word, or n bytes. -/
inductive HostWant where
  | word (name : String)
  | bytes (n : Nat) (name : String)
  deriving DecidableEq, Repr

/-- A Host: its program, the place in it, its variables (the newest value first), the read in progress. -/
structure HostState where
  prog : List HostStmt
  place : Nat
  vars : List (String × HostValue)
  want : Option HostWant
  deriving DecidableEq, Repr

/-! ### Variables and expressions -/

/-- The integer a variable holds; none where it is unset or holds bytes. -/
def hostVar (vars : List (String × HostValue)) (name : String) : Option Nat :=
  match vars.lookup name with
  | some (.int n) => some n
  | some (.bytes _) => none
  | none => none

/-- The value of an expression; none where a variable has none. -/
def hostEval (vars : List (String × HostValue)) : HostExpr → Option Nat
  | .lit n => some n
  | .var name => hostVar vars name
  | .add a b => (hostEval vars a).bind fun x => (hostEval vars b).map fun y => x + y
  | .mul a b => (hostEval vars a).bind fun x => (hostEval vars b).map fun y => x * y
  | .or a b => (hostEval vars a).bind fun x => (hostEval vars b).map fun y => x ||| y
  | .shl a k => (hostEval vars a).map fun x => x <<< k
  | .bit a k => (hostEval vars a).map fun x => if x.testBit k then 1 else 0

/-- Whether a condition holds. -/
def hostHolds (vars : List (String × HostValue)) : HostCond → Option Bool
  | .eq a b => (hostEval vars a).bind fun x => (hostEval vars b).map fun y => decide (x = y)
  | .lt a b => (hostEval vars a).bind fun x => (hostEval vars b).map fun y => decide (x < y)

/-- The place of a label. -/
def hostLabel (prog : List HostStmt) (name : String) : Option Nat := prog.idxOf? (.label name)

/-! ### One move of the Host -/

/-- The byte of a reply. -/
def replyByte : Reply → Byte
  | .byte b => b
  | .word w => w.setWidth 8

/-- The variable of the read that has just been answered takes its value. -/
def hostTake (w : HostWant) (replies : List Reply) (vars : List (String × HostValue)) : List (String × HostValue) :=
  match w, replies with
  | .word name, .word v :: _ => (name, .int v.toNat) :: vars
  | .word name, .byte b :: _ => (name, .int b.toNat) :: vars
  | .word _, [] => vars
  | .bytes n name, rs => (name, .bytes ((rs.take n).reverse.map replyByte)) :: vars

/-- h after its current statement, at the next one. -/
def hostNext (h : HostState) : HostState := { h with place := h.place + 1 }

/-- The Host runs its current statement with no access pending: it hands over the statement's accesses, or moves
itself. None where the program has ended, or the statement has no meaning (an unset variable, a missing label). -/
def hostStmt (h : HostState) (s : State) : Option (HostState × State) :=
  match h.prog[h.place]? with
  | none => none
  | some (.wr off value) =>
    (hostEval h.vars value).map fun v =>
      (hostNext h, { s with inputs := wrOffset s.params off (BitVec.ofNat 32 v) })
  | some (.rd off name) =>
    some ({ hostNext h with want := some (.word name) }, { s with inputs := rdOffset s.params off })
  | some (.memw off bs) => some (hostNext h, { s with inputs := memw off bs })
  | some (.memr off n name) =>
    some ({ hostNext h with want := some (.bytes n name) }, { s with inputs := memr off n })
  | some (.assign name value) =>
    (hostEval h.vars value).map fun v => ({ hostNext h with vars := (name, .int v) :: h.vars }, s)
  | some (.label _) => some (hostNext h, s)
  | some (.goto name) => (hostLabel h.prog name).map fun p => ({ h with place := p }, s)
  | some (.ifGoto c name) =>
    (hostHolds h.vars c).bind fun b =>
      if b then (hostLabel h.prog name).map fun p => ({ h with place := p }, s) else some (hostNext h, s)

/-- A move of the Host with no access pending: it takes the answer of a read in progress, or runs a statement. -/
def hostMove (h : HostState) (s : State) : Option (HostState × State) :=
  match h.want with
  | some w => some ({ h with vars := hostTake w s.replies h.vars, want := none }, s)
  | none => hostStmt h s

/-! ### The Host and the block together -/

/-- One step of the Host beside the block: while an access is pending the block's step interleaves it with the Core
(20_memory.md R73); otherwise the Host moves, and once its program has ended the block steps alone. -/
def systemStep (h : HostState) (s : State) : HostState × Host.Outcome State Fault Refusal :=
  if s.inputs.isEmpty then
    match hostMove h s with
    | some (h', s') => (h', .next s')
    | none => (h, step s)
  else (h, step s)

/-- n steps, stopping at the first fault or refusal. -/
def systemRun (n : Nat) (h : HostState) (s : State) : HostState × Host.Outcome State Fault Refusal :=
  match n with
  | 0 => (h, .next s)
  | k + 1 =>
    match systemStep h s with
    | (h', .next t) => systemRun k h' t
    | (h', .fault r) => (h', .fault r)
    | (h', .refused r) => (h', .refused r)

/-- A Host about to run a program, with no variable set. -/
def hostStart (prog : List HostStmt) : HostState := { prog := prog, place := 0, vars := [], want := none }

/-! ### Pseudo-instructions as statements (30_encoding.md R112, R113) -/

/-- `POLL`, `name` being the label that R112 makes unique. -/
def pollStmts (name : String) : List HostStmt :=
  [.label name, .rd (regOffset .status) "s", .ifGoto (.eq (.bit (.var "s") 0) (.lit 1)) name]

/-- `RUN <command>`. -/
def runStmts (i : Instr) (name : String) : List HostStmt :=
  .wr (regOffset .cmd) (.lit (encode i).toNat) :: pollStmts name

/-- `SETBUF <base>, <len>`. -/
def setbufStmts (b l : HostExpr) : List HostStmt := [.wr (regOffset .msgBase) b, .wr (regOffset .msgLen) l]

/-- `PADLEN`. -/
def padlenStmts (name : String) : List HostStmt :=
  runStmts .pad name ++ [.rd (regOffset .plen) "p", .wr (regOffset .msgLen) (.var "p")]

end Sys2Proof.Machine
end

