-- ==== Sys2Proof/Tests/Slice0.lean ====
section
/-! SUPPORT. Tests whose expected values are those of 95_test_vectors.md, and one witness for the hypotheses of each
statement of Certificates/Slice0/Obligations.lean. -/

namespace Sys2Proof.Tests

open Sys2Proof.Machine

/-! ### Helpers -/

/-- A step answers a next state of which p holds. -/
def after (p : State → Bool) : Result → Bool
  | .next s => p s
  | .fault _ => false
  | .refused _ => false

/-- Why a step faults, none where it does not. -/
def stopped : Result → Option Fault
  | .next _ => none
  | .fault f => some f
  | .refused _ => none

/-- What `after` says, as an equation. -/
theorem next_of_after {p : State → Bool} {r : Result} (h : after p r = true) : ∃ t, r = .next t ∧ p t = true := by
  cases r with
  | next s => exact ⟨s, rfl, h⟩
  | fault f => cases h
  | refused q => cases h

/-- After reset, with bytes written at offset a, and MSG_BASE and MSG_LEN set. -/
def buffer (a : Nat) (bs : List Byte) (b l : Word) : State :=
  { State.reset with mem := Mem.writeBytes [] a bs, msgBase := b, msgLen := l }

/-- s with command i accepted. -/
def busy (i : Instr) (s : State) : State :=
  { s with cmdl := encode i, status := Status.reset.accepted }

/-- s with accesses still to come. -/
def expecting (es : List Input) (s : State) : State := { s with inputs := es }

/-- MEM[0..2] = "abc", MSG_BASE = 0, MSG_LEN = 3. -/
def abc : State := buffer 0 (ascii "abc") 0#32 3#32

/-- MEM[0..63] = 0, MSG_BASE = 0, MSG_LEN = 64. -/
def block0 : State := buffer 0 (zeros 64) 0#32 64#32

/-- Every byte of MEM written, MSG_BASE = 0, MSG_LEN = 128. -/
def full : State := buffer 0 (zeros 256) 0#32 128#32

/-! ### WellFormed and the encodings (95_test_vectors.md V-ENC-1; 30_encoding.md R90 to R94, R110) -/

theorem test_wellFormed_largest_index : (Instr.loadblk 0xFFFFFF).wellFormed = true := by decide

/-- The one check of WellFormed: n fits in IMM (R93). -/
theorem test_wellFormed_refuses_index_too_large : (Instr.loadblk 0x1000000).wellFormed = false := by decide

/-- IMM = 0 (24 bits), RSV = 0, OP = 0001. -/
theorem test_decode_init : decode 0b00000000000000000000000000000001#32 = .ok .init := by decide

/-- IMM = 0, RSV = 0, OP = 0010. -/
theorem test_decode_pad : decode 0b00000000000000000000000000000010#32 = .ok .pad := by decide

/-- IMM = 0000 0000 0000 0000 0001 0000, RSV = 0, OP = 0011: LOADBLK 16. -/
theorem test_decode_loadblk : decode 0b00000000000000000001000000000011#32 = .ok (.loadblk 16) := by decide

theorem test_decode_loadblk_last : decode 0xFFFFFF03#32 = .ok (.loadblk 16777215) := by decide

/-- IMM = 0, RSV = 0, OP = 0100. -/
theorem test_decode_compress : decode 0b00000000000000000000000000000100#32 = .ok .compress := by decide

/-- IMM = 0, RSV = 0, OP = 0101. -/
theorem test_decode_final : decode 0b00000000000000000000000000000101#32 = .ok .final := by decide

/-- IMM = 0, RSV = 0, OP = 0110. -/
theorem test_decode_digest : decode 0b00000000000000000000000000000110#32 = .ok .digest := by decide

/-- IMM = 0, RSV = 0, OP = 0111. -/
theorem test_decode_hash : decode 0b00000000000000000000000000000111#32 = .ok .hash := by decide

/-- The illegal words of V-ENC-1, each by its reason. -/
theorem test_decode_refuses :
    decode 0x00000000#32 = .error (.reservedOp 0#4) ∧ decode 0x00000008#32 = .error (.reservedOp 8#4) ∧
      decode 0x0000000F#32 = .error (.reservedOp 15#4) ∧ decode 0x00000012#32 = .error (.rsvNonzero 1#4) ∧
      decode 0x00000013#32 = .error (.rsvNonzero 1#4) ∧ decode 0x000000F3#32 = .error (.rsvNonzero 15#4) ∧
      decode 0x00000104#32 = .error (.immNonzero 1#24) ∧ decode 0x80000007#32 = .error (.immNonzero 0x800000#24) ∧
      decode 0xFFFFFFFF#32 = .error (.reservedOp 15#4) := by decide

theorem test_encode_loadblk_one : encode (.loadblk 1) = 0x00000103#32 := by decide

theorem test_decodeTableWord : decodeTableWord 32 0x00001003 = some (.loadblk 16) ∧ decodeTableWord 32 0x12 = none := by
  decide

/-- The examples of R110, and what it leaves out: lower case, no operand, an operand too large. -/
theorem test_assemble :
    assembleWord "INIT".toList = some 0x00000001#32 ∧ assembleWord "LOADBLK 1".toList = some 0x00000103#32 ∧
      assembleWord "LOADBLK 0x10".toList = some 0x00001003#32 ∧ assembleWord "hash".toList = none ∧
      assembleWord "LOADBLK".toList = none ∧ assembleWord "LOADBLK 16777216".toList = none := by decide

/-! ### Pure functions (V-F-1, V-ROL-1, V-ROLE-1, V-PAD-1, V-PAD-2, V-TRACE-1) -/

theorem test_mix :
    mix .f1 0xFF00FF00#32 0xF0F0F0F0#32 0xCCCCCCCC#32 = 0xC33CC33C#32 ∧
      mix .f2 0xFF00FF00#32 0xF0F0F0F0#32 0xCCCCCCCC#32 = 0xF0CCF0CC#32 ∧
      mix .f3 0xFF00FF00#32 0xF0F0F0F0#32 0xCCCCCCCC#32 = 0x33C333C3#32 ∧
      mix .f4 0xFF00FF00#32 0xF0F0F0F0#32 0xCCCCCCCC#32 = 0xFC30FC30#32 ∧
      mix .f5 0xFF00FF00#32 0xF0F0F0F0#32 0xCCCCCCCC#32 = 0x0CF30CF3#32 := by decide

theorem test_rol :
    rol 0x80000001#32 1 = 0x00000003#32 ∧ rol 0x12345678#32 5 = 0x468ACF02#32 ∧
      rol 0x12345678#32 15 = 0x2B3C091A#32 ∧ rol 0xFFFFFFFF#32 11 = 0xFFFFFFFF#32 ∧
      rol 0x00000001#32 31 = 0x80000000#32 := by decide

theorem test_roles :
    [1, 5, 63, 64].map (fun j => (roleA j, roleB j, roleC j, roleD j)) =
      [(3, 0, 1, 2), (3, 0, 1, 2), (1, 2, 3, 0), (0, 1, 2, 3)] := by decide

/-- Each row of a word-selection table holds every index (42_compression.md R144). -/
theorem test_wSel_rows_permute :
    ∀ row ∈ rLRows ++ rRRows, row.length = 16 ∧ (List.range 16).all fun k => row.contains k := by decide

/-- Every rotation amount is in 5..15 (42_compression.md R145). -/
theorem test_rotAmt_bounds :
    ∀ j : Fin 64, 5 ≤ rotAmt .left j ∧ rotAmt .left j ≤ 15 ∧ 5 ≤ rotAmt .right j ∧ rotAmt .right j ≤ 15 := by decide

/-- The step entry at j = 17, left lane: RND 1, FSEL 1 (f2), ROT 6, WIDX 4 (42_compression.md R142 to R146). -/
theorem test_romWord : romWord .left 17 = 0b010101100100#12 := by decide

/-- V-STEP-1 and V-TRACE-1: the lanes of the empty message's block after j = 1, and at the end. -/
theorem test_lanes :
    let x : Block := (Vector.replicate 16 0#32).set 0 0x80#32
    lanesAfter iv x 2 =
        (#v[0x52341674#32, 0xEFCDAB89#32, 0x98BADCFE#32, 0x6D5E4D5D#32],
          #v[0x70376F40#32, 0xEFCDAB89#32, 0x98BADCFE#32, 0x989F3BB0#32]) ∧
      lanesAfter iv x 64 =
        (#v[0x5E399EB2#32, 0x72FB491E#32, 0x36F33D82#32, 0xAE2C37B0#32],
          #v[0xF7F53BF3#32, 0xA9A36EA3#32, 0x6C4B47D7#32, 0xECA209C2#32]) := by decide +kernel

theorem test_padlen :
    [0, 1, 3, 55, 56, 57, 63, 64, 119, 120].map (fun n => (padlen n, paddedLen n)) =
      [(56, 64), (55, 64), (53, 64), (1, 64), (64, 128), (63, 128), (57, 128), (56, 128), (1, 128), (64, 192)] := by
  decide

theorem test_lengthField :
    lengthField 55 = [0xb8#8, 0x01#8, 0#8, 0#8, 0#8, 0#8, 0#8, 0#8] ∧
      lengthField (2 ^ 29 + 1) = [0x08#8, 0#8, 0#8, 0#8, 0#8, 0#8, 0#8, 0#8] := by decide

/-! ### The commands (95_test_vectors.md 2.2 to 2.4) -/

/-- V-SEQ-1 -/
theorem test_init :
    after (fun t => t.h == iv && t.status.toWord == 0x02#32)
      (exec .init
        (busy .init { State.reset with h := #v[0x07F3637D#32, 0x2081C24B#32, 0xBC686129#32, 0x0FE5F211#32] })) =
      true := by decide

/-- V-PAD-3 -/
theorem test_pad_abc :
    after
      (fun t => t.plen == 0x40#32 && t.msgLen == 3#32 &&
        bytesAt t.mem 0 64 == ascii "abc" ++ [0x80#8] ++ zeros 52 ++ [0x18#8] ++ zeros 7)
      (exec .pad abc) = true := by decide +kernel

/-- V-PAD-5: E = 264 -/
theorem test_pad_range :
    after (fun t => t.status.toWord == 0x34#32 && t.mem == Mem.writeBytes [] 200 (ascii "xyz"))
      (exec .pad (busy .pad (buffer 200 (ascii "xyz") 200#32 3#32))) = true := by decide

/-- V-SEQ-3: an unaligned base -/
theorem test_loadblk_unaligned :
    after (fun t => t.x == ((Vector.replicate 16 0#32).set 0 0x80636261#32).set 14 0x18#32)
      (exec (.loadblk 0) (buffer 1 (padMessage (ascii "abc")) 1#32 3#32)) = true := by decide +kernel

/-- V-SEQ-4: E = 320 -/
theorem test_loadblk_range :
    after (fun t => t.status.toWord == 0x34#32 && t.x == full.x) (exec (.loadblk 4) (busy (.loadblk 4) full)) = true := by
  decide

/-- V-CMP-2, fourth row -/
theorem test_compress_counting :
    after (fun t => t.h == #v[0xC7D4DB69#32, 0x729B53B8#32, 0x47FBDB89#32, 0x63C57DC2#32])
      (exec .compress { State.reset with x := Vector.ofFn fun i : Fin 16 => BitVec.ofNat 32 i }) = true := by
  decide +kernel

/-- V-CMP-2, second row -/
theorem test_compress_ones :
    after (fun t => t.h == #v[0x362C54CC#32, 0x58AB6333#32, 0x0396CBF3#32, 0x555E5AC7#32])
      (exec .compress
        { State.reset with h := Vector.replicate 4 0xFFFFFFFF#32, x := Vector.replicate 16 0xFFFFFFFF#32 }) = true := by
  decide +kernel

/-- V-SEQ-7 -/
theorem test_final :
    after
      (fun t => ser t.dout ==
        [0xc1#8, 0x4a#8, 0x12#8, 0x19#8, 0x9c#8, 0x66#8, 0xe4#8, 0xba#8, 0x84#8, 0x63#8, 0x6b#8, 0x0f#8, 0x69#8,
          0x14#8, 0x4c#8, 0x77#8])
      (exec .final { State.reset with h := #v[0x19124AC1#32, 0xBAE4669C#32, 0x0F6B6384#32, 0x774C1469#32] }) =
      true := by decide

/-- V-DIG-1 -/
theorem test_digest_zeros :
    after (fun t => t.h == t.dout && t.dout == #v[0x94515F84#32, 0xE3A00BB7#32, 0xF627FD4E#32, 0x59534C4B#32])
      (exec .digest block0) = true := by decide +kernel

/-- V-DIG-3: UNALIGNED_LEN has priority over RANGE -/
theorem test_digest_unaligned_first :
    after (fun t => t.status.toWord == 0x24#32) (exec .digest (busy .digest (buffer 0 [] 256#32 3#32))) = true := by
  decide

/-- V-KAT-3, by a step of a placed word -/
theorem test_hash_abc :
    after
      (fun t => t.status.toWord == 0x02#32 && t.plen == 0x40#32 &&
        t.dout == #v[0x19124AC1#32, 0xBAE4669C#32, 0x0F6B6384#32, 0x774C1469#32])
      (step (abc.withFetchWord 32 7)) = true := by decide +kernel

/-- V-KAT-5: two blocks, the second in X -/
theorem test_hash_two_blocks :
    after
      (fun t => t.dout == #v[0x19EF453F#32, 0xDBC23247#32, 0xC7A2C4B2#32, 0xA35F7969#32] &&
        t.x[0] == 0x38373635#32 && t.x[4] == 0x80#32 && t.x[14] == 0x280#32)
      (exec .hash
        (buffer 0 (ascii "12345678901234567890123456789012345678901234567890123456789012345678901234567890") 0#32
          80#32)) = true := by decide +kernel

/-! ### Accept, STATUS, the window, reset (V-ENC-1, V-ENC-2, V-ST-2 to V-ST-6, V-RST-3) -/

/-- V-ENC-1: STATUS just after the accept of a legal and of an illegal word. -/
theorem test_accept :
    after (fun t => t.status.toWord == 0x01#32) (access (.regWrite 0x00 32 0x00000007#32) State.reset) = true ∧
      after (fun t => t.status.toWord == 0x14#32) (access (.regWrite 0x00 32 0x00000012#32) State.reset) = true := by
  decide

/-- V-ENC-2 -/
theorem test_window :
    stopped (access (.regRead 0x22 32) State.reset) = some (.busError 0x22 32) ∧
      stopped (access (.regRead 0x20 8) State.reset) = some (.busError 0x20 8) ∧
      stopped (access (.regRead 0x80 32) State.reset) = some (.busError 0x80 32) ∧
      after (fun t => t == busy .hash State.reset)
        (access (.regWrite 0x18 32 0xFFFFFFFF#32) (busy .hash State.reset)) = true := by decide

/-- V-ST-3 -/
theorem test_overrun :
    after (fun t => t.status.toWord == 0x09#32 && t.msgLen == 3#32)
      (access (.regWrite 0x0C 32 5#32) (busy .hash abc)) = true := by decide

/-- V-ST-6 -/
theorem test_host_mem_race :
    stopped (access (.memWrite 10 0#8) (busy .hash abc)) = some (.hostMemRace 10) ∧
      after (fun t => Mem.read? t.mem 64 == some 7#8) (access (.memWrite 64 7#8) (busy .hash abc)) = true := by decide

/-- V-RST-3 -/
theorem test_reset_during_hash :
    after (fun t => t.mem == abc.mem && t.msgLen == 0#32 && t.status.toWord == 0#32)
      (access .reset (busy .hash { abc with mem := Mem.writeBytes abc.mem 3 [9#8, 9#8] })) = true := by decide

/-- P1's accesses, written with the statements of 30_encoding.md R111 to R113, one step of them at a time: the
fourth leaves HASH accepted. -/
theorem test_host_program :
    memwText 0 "abc" ++ setbuf Config.defaultParams 0#32 3#32 ++ run Config.defaultParams .hash =
      [.memWrite 0 0x61#8, .memWrite 1 0x62#8, .memWrite 2 0x63#8, .regWrite 0x08 32 0#32, .regWrite 0x0C 32 3#32,
        .regWrite 0x00 32 0x00000007#32, .poll] := by decide

/-- The names of R95 and R111, and two that are none. -/
theorem test_regNamed :
    (regNamed "H2".toList).map regOffset = some 0x28 ∧ (regNamed "X15".toList).map regOffset = some 0x7C ∧
      (regNamed "X9".toList).map regOffset = some 0x64 ∧ (regNamed "DOUT3".toList).map regOffset = some 0x3C ∧
      (regNamed "MSG_LEN".toList).map regOffset = some 0x0C ∧ regNamed "H4".toList = none ∧
      regNamed "X16".toList = none := by decide

/-- V-ENC-2's read at 0x14, and one of H2 by its offset. -/
theorem test_rd_by_offset :
    rdOffset Config.defaultParams 0x14 = [.regRead 0x14 32] ∧
      rdOffset Config.defaultParams 0x28 = rd Config.defaultParams (.h 2) := by decide

/-- P4's rejection at accept, as a Host program: `WR CMD, 0x12`, `RD STATUS -> s1` leaves s1 = 0x14 (the spec's own
end value), and `goto` skips the statement after it. -/
theorem test_host_variables_and_goto :
    let prog : List HostStmt :=
      [.wr (regOffset .cmd) (.lit 0x12), .rd (regOffset .status) "s1", .goto "end", .assign "s1" (.lit 0), .label "end"]
    (systemRun 9 (hostStart prog) State.reset).1.vars = [("s1", .int 0x14)] := by decide +kernel

/-- RUN INIT with the Host first at the first POLL read (30_encoding.md R112, R113): it reads BUSY = 1, loops, and the
last read is DONE alone. -/
theorem test_host_poll_loops :
    (systemRun 14 (hostStart (runStmts .init "poll_1")) { State.reset with turns := [.host] }).1.vars =
      [("s", .int 2), ("s", .int 1)] := by decide +kernel

/-- The reference sequencer on COMPRESS: sixty-nine transitions end in IDLE with the combination in H (V-CMP-2, third
row). -/
theorem test_reference_compress :
    after (fun t => t.fsm == .idle && t.h == #v[0x94515F84#32, 0xE3A00BB7#32, 0xF627FD4E#32, 0x59534C4B#32])
      (fsmRun .compress 69 (busy .compress State.reset)) = true := by decide +kernel

/-- On PAD of "abc": IDLE, CHECK and sixty-one tail bytes, of which the last completes the command (V-PAD-3). -/
theorem test_reference_pad :
    after (fun t => t.fsm == .padw 60 && Mem.read? t.mem 62 == some 0#8 && t.status.busy && t.plen == 0#32)
        (fsmRun .pad 62 (busy .pad abc)) = true ∧
      after (fun t => t.fsm == .idle && t.status.toWord == 0x02#32 && t.plen == 0x40#32)
        (fsmRun .pad 63 (busy .pad abc)) = true := by decide +kernel

/-- On LOADBLK 0 of the padded "abc": after six bytes X0 is whole and X1, whose bytes are zero, is under way (V-SEQ-2's X0). -/
theorem test_reference_loadblk :
    after (fun t => t.fsm == .load 6 && t.x[0] == 0x80636261#32 && t.x[1] == 0#32)
      (fsmRun (.loadblk 0) 8 (busy (.loadblk 0) (buffer 0 (padMessage (ascii "abc")) 0#32 3#32))) = true := by
  decide +kernel

/-! ### One witness for the hypotheses of each statement

The bounds are met with equality where they can be. -/

/-- MEM_SIZE = 64, every byte written, MSG_LEN = 64. -/
def small : State := { buffer 0 (zeros 64) 0#32 64#32 with params := { memSize := 64, regBase := 0 } }

/-- MSG_BASE = 192 and L = 3: the padded message ends at MEM_SIZE (V-PAD-5). -/
def atEnd : State := buffer 192 (ascii "xyz") 192#32 3#32

theorem test_witness_round_trip : (Instr.loadblk 0xFFFFFF).wellFormed = true ∧ (Instr.loadblk 0).wellFormed = true := by
  decide

theorem test_witness_illegal_word : legal 0x00000012#32 = false ∧ State.reset.status.busy = false := by decide

/-- The three branches of accept. -/
theorem test_witness_accept :
    (busy .init State.reset).status.busy = true ∧ State.reset.status.busy = false ∧
      (rsvField 0x00000007#32 = 0#4 ∧ immField 0x00000007#32 = 0#24 ∧ (opField 0x00000007#32).toNat = 7) ∧
      (opField 0x00000008#32).toNat = 8 := by decide

theorem test_witness_step_runs :
    (busy .hash abc).status.busy = true ∧ decode (busy .hash abc).cmdl = .ok .hash ∧ (busy .hash abc).inputs = [] ∧
      { busy .hash abc with inputs := [.poll], turns := [.core] }.turns.head? ≠ some .host := by decide

/-- The three clauses: both can move, the Host alone, nobody. -/
theorem test_witness_interleaving :
    ((expecting [.poll] (busy .hash abc)).status.busy = true ∧ (expecting [.poll] (busy .hash abc)).inputs = [.poll]) ∧
      ((expecting [.poll] abc).status.busy = false ∧ (expecting [.poll] abc).inputs = [.poll]) ∧
      State.reset.ended = true := by decide

theorem test_witness_run_statement :
    State.reset.status.busy = false ∧ State.reset.turns = [] ∧
      (expecting (run State.reset.params .hash) State.reset).inputs =
        [.regWrite (State.reset.params.regBase + 0x00) 32 (encode .hash), .poll] ++ [] :=
  ⟨rfl, rfl, rfl⟩

theorem test_witness_finite_run :
    (busy .init State.reset).ended = false ∧ ∃ t, step (busy .init State.reset) = .next t := ⟨by decide, _, rfl⟩

/-- The last slot inside the window; the first byte after it, and a halfword. -/
theorem test_witness_window :
    (regAt Config.defaultParams 0x7C 32).isSome = true ∧ (regAt Config.defaultParams 0x80 32).isNone = true ∧
      (regAt Config.defaultParams 0x7C 16).isNone = true := by decide

theorem test_witness_busy_and_idle :
    (busy .final State.reset).status.busy = true ∧ State.reset.status.busy = false := by decide

theorem test_witness_reads :
    (∃ t, access (.regRead 0x7C 32) State.reset = .next t) ∧ ∃ t, access (.memRead 255) State.reset = .next t :=
  ⟨⟨_, rfl⟩, _, rfl⟩

theorem test_witness_idle_mem : State.reset.status.busy = false ∧ 255 < State.reset.params.memSize := by decide

/-- The four clauses, HASH of "abc" running: the message is read, the tail written, the rest neither. -/
theorem test_witness_busy_mem :
    (busy .hash abc).status.busy = true ∧ decode (busy .hash abc).cmdl = .ok .hash ∧
      inFootprint .hash (busy .hash abc) 0 = true ∧ inRange (writeRange .hash (busy .hash abc)) 3 = true ∧
      inRange (writeRange .hash (busy .hash abc)) 63 = true ∧ inRange (writeRange .hash (busy .hash abc)) 2 = false ∧
      Mem.read? (busy .hash abc).mem 2 = some 0x63#8 ∧ inFootprint .hash (busy .hash abc) 64 = false ∧
      Mem.read? (busy .hash abc).mem 255 = none ∧ inRange (writeRange .hash (busy .hash abc)) 255 = false ∧
      after (fun _ => true) (exec .hash (busy .hash abc)) = true := by decide +kernel

theorem test_witness_outside : State.reset.params.memSize ≤ 256 := by decide

/-- Step 63, the last: the roles and the last entries of the right lane's tables. -/
theorem test_witness_round_step :
    ((1 : Fin 4).val + 63) % 4 = 0 ∧ ((2 : Fin 4).val + 63) % 4 = 1 ∧ ((3 : Fin 4).val + 63) % 4 = 2 ∧
      ((0 : Fin 4).val + 63) % 4 = 3 ∧ rRRows.flatten[63]? = some 14 ∧ sRRows.flatten[63]? = some 8 ∧
      [Mix.f4, .f3, .f2, .f1][63 / 16]? = some .f1 := by decide

theorem test_witness_pad :
    atEnd.params.memSize ≤ 2 ^ 32 - 64 ∧
      atEnd.msgBase.toNat + 64 * ((atEnd.msgLen.toNat + 8) / 64 + 1) ≤ atEnd.params.memSize := by decide

/-- The padded message of `atEnd` ends with MEM, and its message is written: HASH's statements. -/
theorem test_witness_hash :
    atEnd.params.memSize ≤ 2 ^ 32 - 64 ∧ atEnd.msgBase.toNat + paddedLen atEnd.msgLen.toNat ≤ atEnd.params.memSize ∧
      Written atEnd.mem atEnd.msgBase.toNat atEnd.msgLen.toNat :=
  ⟨by decide, by decide, (firstUnwritten_none_iff _ _ _).1 (by decide)⟩

/-- LOADBLK 3 of `full` ends with MEM. -/
theorem test_witness_loadblk :
    full.msgBase.toNat + 64 * 3 + 64 ≤ full.params.memSize ∧ Written full.mem (full.msgBase.toNat + 64 * 3) 64 ∧
      Mem.read? full.mem 255 = some 0#8 :=
  ⟨by decide, (firstUnwritten_none_iff _ _ _).1 (by decide +kernel), by decide +kernel⟩

/-- DIGEST's statements, and the stepwise one with N = 2. -/
theorem test_witness_digest :
    full.msgLen.toNat % 64 = 0 ∧ full.msgLen.toNat = 64 * 2 ∧
      full.msgBase.toNat + full.msgLen.toNat ≤ full.params.memSize ∧
      Written full.mem full.msgBase.toNat full.msgLen.toNat :=
  ⟨by decide, by decide, by decide, (firstUnwritten_none_iff _ _ _).1 (by decide +kernel)⟩

theorem test_witness_digest_empty :
    (buffer 0 [] 256#32 0#32).msgLen = 0#32 ∧ (buffer 0 [] 256#32 0#32).msgBase.toNat ≤ State.reset.params.memSize := by
  decide

/-- The same message at another base, with another H: both hash. -/
theorem test_witness_no_carry :
    abc.msgLen = (buffer 1 (ascii "abc") 1#32 3#32).msgLen ∧
      bytesAt abc.mem 0 3 = bytesAt (buffer 1 (ascii "abc") 1#32 3#32).mem 1 3 ∧
      after (fun _ => (errorOf .hash abc).isNone) (exec .hash abc) = true ∧
      after (fun _ => (errorOf .hash (buffer 1 (ascii "abc") 1#32 3#32)).isNone)
        (exec .hash (buffer 1 (ascii "abc") 1#32 3#32)) = true ∧
      after (fun _ => (errorOf .digest block0).isNone) (exec .digest block0) = true := by decide +kernel

/-- The four clauses: PAD and HASH one byte too far; LOADBLK 4; DIGEST at 192 of two blocks; INIT. -/
theorem test_witness_range :
    let p : State := buffer 193 (ascii "xyz") 193#32 3#32
    let d : State := buffer 192 (ascii "xyz") 192#32 128#32
    p.params.memSize < p.msgBase.toNat + 64 * ((p.msgLen.toNat + 8) / 64 + 1) ∧
      full.params.memSize < full.msgBase.toNat + 64 * 4 + 64 ∧
      (d.msgLen.toNat % 64 = 0 ∧ d.params.memSize < d.msgBase.toNat + d.msgLen.toNat) ∧
      State.reset.status.ecode ≠ .range ∧ after (fun _ => true) (exec .init State.reset) = true := by decide

theorem test_witness_unaligned :
    abc.msgLen.toNat % 64 ≠ 0 ∧ Instr.init ≠ .digest ∧ abc.status.ecode ≠ .unalignedLen ∧
      after (fun _ => true) (exec .init abc) = true ∧ after (fun _ => true) (exec .pad abc) = true := by
  decide +kernel

theorem test_witness_rejection :
    (busy .digest abc).status.busy = true ∧ (busy .digest abc).status.coherent = true ∧
      after (fun t => t.status.err) (exec .digest (busy .digest abc)) = true := by decide

theorem test_witness_completion :
    (busy .init State.reset).status.coherent = true ∧
      after (fun _ => true) (exec .init (busy .init State.reset)) = true := by decide

/-- LOADBLK, DIGEST and HASH with the last byte they read unwritten. -/
theorem test_witness_uninit :
    (errorOf (.loadblk 0) (buffer 0 (zeros 63) 0#32 64#32) = none ∧
        errorOf .digest (buffer 0 (zeros 63) 0#32 64#32) = none ∧
        Mem.read? (buffer 0 (zeros 63) 0#32 64#32).mem 63 = none ∧
        firstUnwritten (buffer 0 (zeros 63) 0#32 64#32).mem 0 63 = none) ∧
      errorOf .hash (buffer 0 (ascii "ab") 0#32 3#32) = none ∧ Mem.read? (buffer 0 (ascii "ab") 0#32 3#32).mem 2 = none ∧
      firstUnwritten (buffer 0 (ascii "ab") 0#32 3#32).mem 0 2 = none := by decide +kernel

/-- The invariant in a state whose Core can move, MEM written throughout. -/
theorem test_witness_invariant :
    State.Inv (busy .hash small) ∧ nextAgent (busy .hash small) = some .core ∧
      Written (busy .hash small).mem 0 (busy .hash small).params.memSize :=
  ⟨⟨by decide, by decide +kernel, by decide +kernel, by decide, by decide, by decide, by decide, by decide⟩, by decide,
    (firstUnwritten_none_iff _ _ _).1 (by decide +kernel)⟩

/-- From that state a step answers a next state. -/
theorem test_witness_step_keeps : ∃ t, step (busy .hash small) = .next t := by
  obtain ⟨t, h, _⟩ := next_of_after (p := fun _ => true) (r := step (busy .hash small)) (by decide +kernel)
  exact ⟨t, h⟩

theorem test_witness_frames :
    after (fun _ => true) (exec .init abc) = true ∧ after (fun _ => true) (exec (.loadblk 0) full) = true ∧
      after (fun _ => true) (exec .compress abc) = true ∧ after (fun _ => true) (exec .final abc) = true ∧
      after (fun _ => true) (exec .digest full) = true ∧ after (fun _ => true) (exec .pad abc) = true ∧
      after (fun _ => true) (exec .hash abc) = true := by decide +kernel

/-- Steps that change DOUT, PLEN, MSG_BASE, H and X. -/
theorem test_witness_registers_change :
    after (fun t => t.dout != State.reset.dout) (step (busy .final State.reset)) = true ∧
      after (fun t => t.plen != abc.plen) (step (busy .pad abc)) = true ∧
      after (fun t => t.msgBase != abc.msgBase) (step (expecting [.regWrite 0x08 32 7#32] abc)) = true ∧
      after (fun t => t.h != abc.h) (step (busy .compress abc)) = true ∧
      after (fun t => t.x != (Vector.replicate 16 1#32 : Block))
        (step (busy (.loadblk 0) { small with x := Vector.replicate 16 1#32 })) = true := by
  decide +kernel

theorem test_witness_params : Config.defaultParams.ok = true := by decide

/-- Two states that differ and look alike. -/
theorem test_witness_visible :
    State.reset.visible = { State.reset with vl := iv, cmdl := 7#32 }.visible ∧
      State.reset ≠ { State.reset with vl := iv, cmdl := 7#32 } := by decide

theorem test_witness_reference : (busy .hash abc).status.busy = true ∧ (busy .hash abc).fsm = .idle := by decide

end Sys2Proof.Tests
end

/-! The register window seen from the Host: what a read returns and which writes are ignored, by register
(10_state.md R37, R38), and the reset values (10_state.md R36). -/

namespace Sys2Proof.Machine

/-! ### The register at an offset (30_encoding.md R95, R97) -/

theorem regOffset_lt (r : Reg) : regOffset r < 128 := by
  cases r <;> simp only [regOffset] <;> omega

theorem regOffset_mod_four (r : Reg) : regOffset r % 4 = 0 := by
  cases r <;> simp only [regOffset] <;> omega

theorem slotReg_regOffset (r : Reg) : slotReg (regOffset r / 4) = r := by
  cases r with
  | h i => exact slotReg_h i
  | dout i => exact slotReg_dout i
  | x i => exact slotReg_x i
  | _ => rfl

theorem regAt_regOffset (p : Params) (r : Reg) : regAt p (p.regBase + regOffset r) 32 = some r := by
  rw [regAt_base_add p _ (regOffset_lt r) (regOffset_mod_four r), slotReg_regOffset]

/-- `regOffset` names the first of the three reserved offsets alone. -/
theorem regAt_reserved (p : Params) {off : Nat} (h : off ∈ [0x14, 0x18, 0x1C]) :
    regAt p (p.regBase + off) 32 = some .reserved := by
  have hslot : off < 128 ∧ off % 4 = 0 ∧ slotReg (off / 4) = .reserved := by
    revert off
    decide
  obtain ⟨hlt, hmod, hreg⟩ := hslot
  rw [regAt_base_add p off hlt hmod, hreg]

/-! ### Reads (10_state.md R38) -/

section
variable {s : State} {addr : Nat} {r : Reg}

theorem access_regRead_of_regAt (hr : regAt s.params addr 32 = some r) :
    access (.regRead addr 32) s = .next (readReg r s) := by
  simp only [access, hostRead, hr]

theorem readReg_of_busy (hb : s.status.busy = true) (he : readsExactly r = false) :
    readReg r s =
      { s with replies := .word (Config.freeWord s.draws) :: s.replies, draws := s.draws + 1 } := by
  simp [readReg, hb, he, addReply, countDraw]

theorem readReg_of_exact (he : readsExactly r = true) :
    readReg r s = { s with replies := .word (regValue s r) :: s.replies } := by
  simp [readReg, he, addReply]

theorem readReg_of_idle (hb : s.status.busy = false) :
    readReg r s = { s with replies := .word (regValue s r) :: s.replies } := by
  simp [readReg, hb, addReply]

end

/-! ### Ignored writes (10_state.md R37) -/

/-- The registers whose Host writes are ignored at every time (10_state.md R37). -/
def Reg.readOnly : Reg → Bool
  | .status | .plen | .reserved | .dout _ => true
  | .cmd | .msgBase | .msgLen | .h _ | .x _ => false

section
variable {s : State} {addr : Nat} {r : Reg} (v : Word)

theorem access_regWrite_of_regAt (hr : regAt s.params addr 32 = some r) :
    access (.regWrite addr 32 v) s = .next (writeReg v s r) := by
  simp only [access, hostWrite, hr]

theorem writeReg_of_readOnly (hro : r.readOnly = true) : writeReg v s r = s := by
  cases r with
  | status | plen | reserved | dout => rfl
  | cmd | msgBase | msgLen | h | x => cases hro

theorem unlessBusy_of_busy (effect : State) (hb : s.status.busy = true) :
    unlessBusy s effect = { s with status := { s.status with ovr := true } } := if_pos hb

theorem writeReg_of_busy (hb : s.status.busy = true) (hro : r.readOnly = false) :
    writeReg v s r = { s with status := { s.status with ovr := true } } := by
  cases r with
  | status | plen | reserved | dout => cases hro
  | cmd | msgBase | msgLen | h | x => exact unlessBusy_of_busy _ hb

end

/-! ### Reset values (10_state.md R36) -/

theorem toWord_reset : Status.reset.toWord = 0#32 := by decide

theorem resetWith_dout (p : Params) : (State.resetWith p).dout = Vector.replicate 4 0#32 := rfl

theorem resetWith_x (p : Params) : (State.resetWith p).x = Vector.replicate 16 0#32 := rfl

/-! ### The obligations -/

/-- Settles O13: each offset reaches its register (`regAt_regOffset`), whose read is exact, idle or a free draw. -/
theorem registerReadsReturn : Obligations.RegisterReadsReturn := by
  intro s i k
  have hreg (r : Reg) := access_regRead_of_regAt (regAt_regOffset s.params r)
  have hrsv {off : Nat} (h : off ∈ [0x14, 0x18, 0x1C]) := access_regRead_of_regAt (regAt_reserved s.params h)
  have hexact {a : Nat} {r : Reg} (ha : access (.regRead a 32) s = .next (readReg r s))
      (he : readsExactly r = true) := ha.trans (congrArg _ (readReg_of_exact he))
  refine ⟨⟨hexact (hreg .cmd) rfl, hexact (hreg .status) rfl, hexact (hrsv (by decide)) rfl,
    hexact (hrsv (by decide)) rfl, hexact (hrsv (by decide)) rfl⟩, ?_⟩
  split
  next hb =>
    have hfree (r : Reg) (he : readsExactly r = false) := (hreg r).trans (congrArg _ (readReg_of_busy hb he))
    exact ⟨hfree .msgBase rfl, hfree .msgLen rfl, hfree .plen rfl, hfree (.h i) rfl, hfree (.dout i) rfl,
      hfree (.x k) rfl⟩
  next hb =>
    have hval (r : Reg) := (hreg r).trans (congrArg _ (readReg_of_idle (Bool.eq_false_of_not_eq_true hb)))
    exact ⟨hval .msgBase, hval .msgLen, hval .plen, hval (.h i), hval (.dout i), hval (.x k)⟩

/-- Settles O14: a busy block ignores the writable registers with OVR, and every block the read-only ones. -/
theorem ignoredRegisterWrites : Obligations.IgnoredRegisterWrites := by
  intro s v i k
  have hreg (r : Reg) := access_regWrite_of_regAt v (regAt_regOffset s.params r)
  constructor
  · intro hb
    have hovr (r : Reg) (hro : r.readOnly = false) := (hreg r).trans (congrArg _ (writeReg_of_busy v hb hro))
    simp only [List.forall_mem_cons, List.not_mem_nil, false_implies, implies_true, and_true]
    exact ⟨hovr .cmd rfl, hovr .msgBase rfl, hovr .msgLen rfl, hovr (.h i) rfl, hovr (.x k) rfl⟩
  · have hsilent (r : Reg) (hro : r.readOnly = true) := (hreg r).trans (congrArg _ (writeReg_of_readOnly v hro))
    have hrsv (off : Nat) (h : off ∈ [0x14, 0x18, 0x1C]) :
        access (.regWrite (s.params.regBase + off) 32 v) s = .next s :=
      access_regWrite_of_regAt v (regAt_reserved s.params h)
    rw [List.forall_mem_cons, List.forall_mem_cons, List.forall_mem_cons]
    exact ⟨hsilent .status rfl, hsilent .plen rfl, hsilent (.dout i) rfl, hrsv⟩

/-- Settles O22: the reset state field by field; DOUT and X are constant vectors, MEM is empty. -/
theorem resetValuesOfRegisters : Obligations.ResetValuesOfRegisters := by
  intro p
  refine ⟨toWord_reset, rfl, rfl, rfl, rfl, fun i => ?_, fun i => ?_, rfl, read_nil⟩
  · simp [resetWith_dout]
  · simp [resetWith_x]

end Sys2Proof.Machine

/-! The command word, its accept, and the decoding of a window access: which words are illegal (30_encoding.md R98),
what a Host write to CMD does (R100), which slot an access reaches (R96), the reserved offsets (R97). -/

namespace Sys2Proof

/-! ### Legal words (30_encoding.md R98, R100) -/

theorem legal_iff (w : Word) :
    legal w = true ↔ 1 ≤ (opField w).toNat ∧ (opField w).toNat ≤ 7 ∧ rsvField w = 0#4 ∧
      (opField w = 3#4 ∨ immField w = 0#24) := by
  simp [legal, and_assoc]

/-- The four causes of 30_encoding.md R98 are the negations of the four conditions of R100. -/
theorem legal_eq_false_iff (w : Word) :
    legal w = false ↔ opField w = 0#4 ∨ 8 ≤ (opField w).toNat ∨ rsvField w ≠ 0#4 ∨
      (opField w ≠ 3#4 ∧ immField w ≠ 0#24) := by
  have hzero : opField w = 0#4 ↔ ¬1 ≤ (opField w).toNat := by
    rw [← BitVec.toNat_inj, BitVec.toNat_zero]
    omega
  have hbig : 8 ≤ (opField w).toNat ↔ ¬(opField w).toNat ≤ 7 := by omega
  rw [← Bool.not_eq_true, legal_iff, hzero, hbig]
  simp only [not_and_or, not_or, ne_eq]

end Sys2Proof

namespace Sys2Proof.Machine

/-! ### Accept (30_encoding.md R100) -/

theorem Status.accepted_eq (t : Status) :
    t.accepted = { busy := true, done := false, err := false, ovr := false, ecode := .none } := rfl

theorem Status.illegal_of_idle {t : Status} (hb : t.busy = false) :
    t.illegal = { busy := false, done := false, err := true, ovr := false, ecode := .illegalCmd } := by
  simp only [Status.illegal, Status.cleared, hb]

theorem access_cmdWrite (s : State) (w : Word) :
    access (.regWrite (s.params.regBase + 0x00) 32 w) s = .next (writeReg w s .cmd) :=
  access_regWrite_of_regAt w (regAt_regOffset s.params .cmd)

section
variable {s : State} {w : Word}

theorem accept_of_legal (hw : legal w = true) :
    accept w s = { s with
      cmdl := w
      status := { busy := true, done := false, err := false, ovr := false, ecode := .none } } := by
  rw [accept, if_pos hw, Status.accepted_eq]

theorem accept_of_illegal (hw : legal w = false) (hb : s.status.busy = false) :
    accept w s =
      { s with status := { busy := false, done := false, err := true, ovr := false, ecode := .illegalCmd } } := by
  simp [accept, hw, Status.illegal_of_idle hb]

theorem writeReg_cmd_of_idle (hb : s.status.busy = false) : writeReg w s .cmd = accept w s := by
  simp [writeReg, unlessBusy, hb]

end

/-! ### The slots of the window (30_encoding.md R95, R96) -/

/-- The 32 word slots in the order of 30_encoding.md R95. -/
def slotTable : List Reg :=
  [.cmd, .status, .msgBase, .msgLen, .plen, .reserved, .reserved, .reserved, .h 0, .h 1, .h 2, .h 3, .dout 0, .dout 1,
    .dout 2, .dout 3, .x 0, .x 1, .x 2, .x 3, .x 4, .x 5, .x 6, .x 7, .x 8, .x 9, .x 10, .x 11, .x 12, .x 13, .x 14,
    .x 15]

theorem slotTable_getElem? : ∀ k < 32, slotTable[k]? = some (slotReg k) := by decide

section
variable {s : State} {addr width : Nat}

theorem access_regRead_of_regAt_none (hr : regAt s.params addr width = none) :
    access (.regRead addr width) s = .fault (.busError addr width) := by
  simp only [access, hostRead, hr]

theorem access_regWrite_of_regAt_none (v : Word) (hr : regAt s.params addr width = none) :
    access (.regWrite addr width v) s = .fault (.busError addr width) := by
  simp only [access, hostWrite, hr]

end

/-! ### The obligations -/

/-- Settles O3: R98's causes negate R100's conditions, and an idle block answers a CMD write with `accept`. -/
theorem illegalWordsRejectedAtAccept : Obligations.IllegalWordsRejectedAtAccept := by
  refine ⟨legal_eq_false_iff, fun w s hw hb => ?_⟩
  rw [access_cmdWrite, writeReg_cmd_of_idle hb, accept_of_illegal hw hb]

/-- Settles O4: a busy block overruns; an idle one accepts, by whether the word is legal. -/
theorem acceptOfCommandWord : Obligations.AcceptOfCommandWord := by
  intro w s
  rw [access_cmdWrite]
  simp only [← legal_iff]
  congr 1
  split
  next hb => exact writeReg_of_busy w hb rfl
  next hb =>
    have hidle := Bool.eq_false_of_not_eq_true hb
    rw [writeReg_cmd_of_idle hidle]
    split
    next hw => exact accept_of_legal hw
    next hw => exact accept_of_illegal (Bool.eq_false_of_not_eq_true hw) hidle

/-- Settles O12: `regAt` answers the slot of the table inside the window and nothing elsewhere. -/
theorem windowAccessDecoded : Obligations.WindowAccessDecoded := by
  intro s addr width v
  split
  next hwin =>
    have hreg : regAt s.params addr width = some (slotReg ((addr - s.params.regBase) / 4)) := if_pos hwin
    obtain ⟨hlow, hhigh, -, rfl⟩ := hwin
    exact ⟨_, slotTable_getElem? _ (by omega), access_regRead_of_regAt hreg, access_regWrite_of_regAt v hreg⟩
  next hwin =>
    have hreg : regAt s.params addr width = none := if_neg hwin
    exact ⟨access_regRead_of_regAt_none hreg, access_regWrite_of_regAt_none v hreg⟩

/-- Settles O16: the reserved register reads exactly and is read only. -/
theorem reservedOffsetsAreInert : Obligations.ReservedOffsetsAreInert := by
  intro s v off hoff
  have hreg := regAt_reserved s.params hoff
  exact ⟨(access_regRead_of_regAt hreg).trans (congrArg _ (readReg_of_exact rfl)),
    (access_regWrite_of_regAt v hreg).trans (congrArg _ (writeReg_of_readOnly v rfl))⟩

end Sys2Proof.Machine

/-! The padding encoder: the bytes of the length field (41_padding.md R123) and what PAD leaves in every byte of MEM
(R126). -/

namespace Sys2Proof.Machine

/-! ### The length field (41_padding.md R123) -/

section
variable {k : Nat} (L : Nat)

theorem lengthField_getElem?_low (hk : k < 4) :
    (lengthField L)[k]? = some (byteOf (BitVec.ofNat 32 (8 * L)) k) := by
  match k, hk with
  | 0, _ | 1, _ | 2, _ | 3, _ => rfl

theorem lengthField_getElem?_high (hlow : 4 ≤ k) (hhigh : k < 8) : (lengthField L)[k]? = some 0#8 := by
  match k, hlow, hhigh with
  | 4, _, _ | 5, _, _ | 6, _, _ | 7, _, _ => rfl

end

/-- Truncation to 32 bits does not reach the four low bytes. -/
theorem byteOf_ofNat {k : Nat} (n : Nat) (hk : k < 4) :
    byteOf (BitVec.ofNat 32 n) k = BitVec.ofNat 8 (n / 256 ^ k) := by
  have hsplit : 2 ^ 32 = 256 ^ k * 256 ^ (4 - k) := by
    rw [← pow_add, Nat.add_sub_cancel' hk.le]
    rfl
  have hdvd : 2 ^ 8 ∣ 256 ^ (4 - k) := dvd_pow_self 256 (by omega)
  apply BitVec.eq_of_toNat_eq
  rw [byteOf_eq_ofNat, BitVec.toNat_ofNat, BitVec.toNat_ofNat, BitVec.toNat_ofNat, hsplit,
    Nat.mod_mul_right_div_self, Nat.mod_mod_of_dvd _ hdvd]

theorem lengthField_add_period (L : Nat) : lengthField (L + 2 ^ 29) = lengthField L := by
  have hwrap : BitVec.ofNat 32 (8 * (L + 2 ^ 29)) = BitVec.ofNat 32 (8 * L) := by
    apply BitVec.eq_of_toNat_eq
    rw [BitVec.toNat_ofNat, BitVec.toNat_ofNat]
    omega
  rw [lengthField, hwrap, lengthField]

/-! ### MEM after PAD (41_padding.md R126) -/

section
variable (s : State)

theorem read_padEffect_marker : Mem.read? (padEffect s).mem (base s + len s) = some 0x80#8 := by
  have htail := read_padEffect_tail s (k := 0) (by omega)
  rwa [padTail_getElem? _ _ (by omega), if_pos rfl] at htail

theorem read_padEffect_zeros {off : Nat} (hlow : base s + len s < off)
    (hhigh : off < base s + paddedLen (len s) - 8) : Mem.read? (padEffect s).mem off = some 0#8 := by
  obtain ⟨k, rfl⟩ := Nat.exists_eq_add_of_le hlow.le
  have hk : k < padlen (len s) := by
    unfold paddedLen at hhigh
    omega
  rw [read_padEffect_tail s (by omega), padTail_getElem? _ _ (by omega), if_neg (by omega), if_pos hk]

theorem read_padEffect_lengthField {k : Nat} (hk : k < 8) :
    Mem.read? (padEffect s).mem (base s + paddedLen (len s) - 8 + k) = (lengthField (len s))[k]? := by
  have hpad := (padlen_bounds (len s)).1
  have hoff : base s + paddedLen (len s) - 8 + k = base s + len s + (padlen (len s) + k) := by
    unfold paddedLen
    omega
  rw [hoff, read_padEffect_tail s (by omega), padTail_getElem? _ _ (by omega), if_neg (by omega), if_neg (by omega),
    Nat.add_sub_cancel_left]

/-- Every byte of MEM after PAD: the message, the marker, the zeros, the bit length, its zeros, what follows. -/
theorem read_padEffect (off : Nat) :
    Mem.read? (padEffect s).mem off =
      if off < base s + len s then Mem.read? s.mem off
      else if off = base s + len s then some 0x80#8
      else if off < base s + paddedLen (len s) - 8 then some 0x00#8
      else if off < base s + paddedLen (len s) - 4 then
        some (BitVec.ofNat 8 (8 * len s / 256 ^ (off - (base s + paddedLen (len s) - 8))))
      else if off < base s + paddedLen (len s) then some 0x00#8
      else Mem.read? s.mem off := by
  have hlen : 8 ≤ paddedLen (len s) := Nat.le_add_left 8 _
  split
  next hmsg => exact read_padEffect_before s hmsg
  split
  next hmark => rw [hmark, read_padEffect_marker]
  split
  next hzero => exact read_padEffect_zeros s (by omega) hzero
  have hfield : off < base s + paddedLen (len s) → Mem.read? (padEffect s).mem off =
      (lengthField (len s))[off - (base s + paddedLen (len s) - 8)]? := fun hoff => by
    rw [← read_padEffect_lengthField s (by omega), Nat.add_sub_cancel' (by omega)]
  split
  next hlow => rw [hfield (by omega), lengthField_getElem?_low _ (by omega), byteOf_ofNat _ (by omega)]
  split
  next hhigh => rw [hfield hhigh, lengthField_getElem?_high _ (by omega) (by omega)]
  next hafter => exact read_padEffect_after s (by omega)

end

/-! ### The obligations -/

/-- Settles O33: the field is the four bytes of a 32-bit word and four zeros, and the word wraps at 2^29 bytes. -/
theorem lengthFieldTruncates : Obligations.LengthFieldTruncates := by
  intro L
  refine ⟨lengthField_length L, fun k hk => ?_, fun k => lengthField_getElem?_high L, lengthField_add_period L⟩
  rw [lengthField_getElem?_low L hk, byteOf_eq_ofNat, BitVec.toNat_ofNat]

/-- Settles O34: the footprint check decides between RANGE and PAD's effect, whose MEM is `read_padEffect`. -/
theorem padWritesTailInPlace : Obligations.PadWritesTailInPlace := by
  refine ⟨rfl, fun s => ?_⟩
  simp only [← paddedLen_eq]
  refine ⟨fun hout => exec_rejected (errorOf_range rfl rfl hout), fun hmem hin => ?_⟩
  exact ⟨finish (padEffect s), exec_done (errorOf_pad_none hin) trivial, rfl, padEffect_plen_toNat hmem hin,
    read_padEffect s⟩

end Sys2Proof.Machine

/-! The compression engine: which lane register plays which role at a step (42_compression.md R147), what one step of a
lane writes and with which table entries (R149), and the lanes side by side as two lanes by themselves (R151, R153). -/

namespace Sys2Proof.Machine

/-! ### Roles (42_compression.md R147) -/

section
variable {j : Nat}

theorem sub_ofNat_val (k : Fin 4) (j : Nat) : ((k - Fin.ofNat 4 j).val : Int) = (k.val - (j : Int)) % 4 := by
  have hsub : (k - Fin.ofNat 4 j).val = (4 - j % 4 + k.val) % 4 := rfl
  omega

theorem ofNat_add_four (j : Nat) : Fin.ofNat 4 (j + 4) = Fin.ofNat 4 j :=
  Fin.ext (Nat.add_mod_right j 4)

/-- The register i with i + j ≡ k (mod 4) is the one the model computes for the role k. -/
theorem eq_sub_ofNat {i : Fin 4} (k : Fin 4) (h : (i.val + j) % 4 = k.val) : i = k - Fin.ofNat 4 j := by
  have hval := sub_ofNat_val k j
  apply Fin.ext
  omega

/-! ### One step of a lane (42_compression.md R149) -/

theorem sub_ofNat_ne_roleA {k : Fin 4} (hk : k ≠ 0) : k - Fin.ofNat 4 j ≠ roleA j := sub_left_injective.ne hk

variable (l : Lane) (v : Quad) (x : Block)

theorem rfStep_roleA (j : Nat) :
    (rfStep l j v x)[roleA j] =
      rol (v[roleA j] + mix (fSel l (j / 16)) v[roleB j] v[roleC j] v[roleD j] + x[Fin.ofNat 16 (wSel l j)] +
        kConst l (j / 16)) (rotAmt l j) :=
  Vector.getElem_set_self _

theorem rfStep_of_ne_roleA {i : Fin 4} (h : i ≠ roleA j) : (rfStep l j v x)[i] = v[i] :=
  Vector.getElem_set_ne _ _ (Fin.val_ne_of_ne h.symm)

end

/-! ### The tables (42_compression.md R144, R145) -/

theorem getElem?_map_range {α : Type} {f : Nat → α} {n j : Nat} {y : α} :
    ((List.range n).map f)[j]? = some y ↔ j < n ∧ f j = y := by
  simp [List.getElem?_eq_some_iff]

theorem wSel_row_surjective (l : Lane) : ∀ q < 4, ∀ w < 16, ∃ c < 16, wSel l (16 * q + c) = w := by
  cases l <;> decide

theorem rotAmt_bounds (l : Lane) : ∀ j < 64, 5 ≤ rotAmt l j ∧ rotAmt l j ≤ 15 := by
  cases l <;> decide

/-! ### The lanes by themselves (42_compression.md R151) -/

theorem lanesAfter_eq_laneAlone (h : Quad) (x : Block) (n : Nat) :
    lanesAfter h x n = (laneAlone .left h x n, laneAlone .right h x n) := by
  induction n with
  | zero => rfl
  | succ n ih => rw [lanesAfter, ih, laneAlone, laneAlone]

theorem compressEffect_eq (s : State) :
    compressEffect s = { s with
      vl := laneAlone .left s.h s.x 64
      vr := laneAlone .right s.h s.x 64
      h := combine s.h (laneAlone .left s.h s.x 64) (laneAlone .right s.h s.x 64) } := by
  rw [compressEffect, lanesAfter_eq_laneAlone]

/-! ### The obligations -/

/-- Settles O27: each role is a constant minus j in `Fin 4`. -/
theorem rolesRotate : Obligations.RolesRotate := by
  intro j
  have hperiod (k : Fin 4) : k - Fin.ofNat 4 (j + 4) = k - Fin.ofNat 4 j := congrArg (k - ·) (ofNat_add_four j)
  exact ⟨sub_ofNat_val 0 j, sub_ofNat_val 1 j, sub_ofNat_val 2 j, sub_ofNat_val 3 j, hperiod 0, hperiod 1, hperiod 2,
    hperiod 3⟩

/-- Settles O28: the written-out tables list the model's selections in order, and the step sets the register that
plays A alone. -/
theorem roundStepUpdatesA : Obligations.RoundStepUpdatesA := by
  unfold Obligations.RoundStepUpdatesA
  intro words rotations functions constants
  have hwords (l : Lane) : words l = (List.range 64).map (wSel l) := by cases l <;> rfl
  have hrotations (l : Lane) : rotations l = (List.range 64).map (rotAmt l) := by cases l <;> rfl
  have hfunctions (l : Lane) : functions l = (List.range 4).map (fSel l) := by cases l <;> rfl
  have hconstants (l : Lane) : constants l = (List.range 4).map (kConst l) := by cases l <;> rfl
  simp only [hwords, hrotations, hfunctions, hconstants, getElem?_map_range]
  refine ⟨fun l q w hq hw => ?_, fun l j hj => ⟨rotAmt l j, ⟨hj, rfl⟩, rotAmt_bounds l j hj⟩, ?_⟩
  · obtain ⟨c, hc, hsel⟩ := wSel_row_surjective l q hq w hw
    exact ⟨c, hc, by omega, hsel⟩
  · rintro l j v x a b c d _ _ _ _ ha hb hc hd ⟨-, rfl⟩ ⟨-, rfl⟩ ⟨-, rfl⟩ ⟨-, rfl⟩
    obtain rfl : a = roleA j := eq_sub_ofNat 0 ha
    obtain rfl : b = roleB j := eq_sub_ofNat 1 hb
    obtain rfl : c = roleC j := eq_sub_ofNat 2 hc
    obtain rfl : d = roleD j := eq_sub_ofNat 3 hd
    have hkeep {k : Fin 4} (hk : k ≠ 0) := rfStep_of_ne_roleA l v x (sub_ofNat_ne_roleA (j := j) hk)
    exact ⟨rfStep_roleA l v x j, hkeep (k := 1) (by decide), hkeep (k := 2) (by decide), hkeep (k := 3) (by decide)⟩

/-- Settles O30: COMPRESS always completes with its effect, whose lanes are the lanes by themselves. -/
theorem compressFoldsBlock : Obligations.CompressFoldsBlock := by
  refine ⟨rfl, fun s => ⟨laneAlone .left s.h s.x 64, laneAlone .right s.h s.x 64, ?_⟩⟩
  rw [exec_done (errorOf_compress s) trivial]
  simp only [effectOf, compressEffect_eq, combine, finish, Status.completed]

end Sys2Proof.Machine

/-! The block sequencer's single commands: the bytes of `ser` (43_sequencer.md R183) that FINAL latches, what INIT
(R181) and FINAL (R186) answer, and the words LOADBLK (R184) assembles. -/

namespace Sys2Proof.Machine

/-! ### The serialised state (43_sequencer.md R183) -/

/-- Byte k of word i stands at 4 i + k: little-endian words, in order. -/
theorem ser_getElem? (h : Quad) (i k : Fin 4) : (ser h)[4 * i.val + k.val]? = some (byteOf h[i] k.val) := by
  match i with
  | 0 | 1 | 2 | 3 => match k with | 0 | 1 | 2 | 3 => rfl

theorem ser_iv :
    ser iv =
      [0x01#8, 0x23#8, 0x45#8, 0x67#8, 0x89#8, 0xab#8, 0xcd#8, 0xef#8, 0xfe#8, 0xdc#8, 0xba#8, 0x98#8, 0x76#8,
        0x54#8, 0x32#8, 0x10#8] := by
  decide

/-! ### INIT and FINAL have no error (43_sequencer.md R181, R186) -/

theorem exec_init (s : State) : exec .init s = .next (finish (initH s)) := exec_done (errorOf_init s) trivial

theorem exec_final (s : State) : exec .final s = .next (finish (latchOut s)) := exec_done (errorOf_final s) trivial

/-! ### Reading a block (20_memory.md R64, R66) -/

section
variable {m : Mem} {a : Nat}

/-- A read of bytes not all written faults at one that is not. -/
theorem exists_reading_fault {i : Instr} {n : Nat} (hw : ¬Written m a n) (r : Result) :
    ∃ off, Mem.read? m off = none ∧ reading i m a n r = .fault (.uninitRead i off) := by
  obtain ⟨off, hoff⟩ := Option.ne_none_iff_exists'.1 (mt (firstUnwritten_none_iff m a n).1 hw)
  obtain ⟨-, -, hnone, -⟩ := (firstUnwritten_some_iff m a n off).1 hoff
  exact ⟨off, hnone, reading_fault hoff r⟩

theorem byteAt_of_read {b : Byte} (hb : Mem.read? m a = some b) : byteAt m a = b := by
  rw [byteAt, hb, Option.getD_some]

theorem blockAt_getElem (i : Fin 16) :
    (blockAt m a)[i] =
      le32 (byteAt m (a + 4 * i)) (byteAt m (a + 4 * i + 1)) (byteAt m (a + 4 * i + 2)) (byteAt m (a + 4 * i + 3)) :=
  Vector.getElem_ofFn i.isLt

end

/-! ### The obligations -/

/-- Settles O35: the footprint check decides RANGE, the read of the block decides UNINIT_READ, and what is loaded is
`blockAt`, sixteen words each `le32` of its four bytes. -/
theorem loadblkAssemblesWords : Obligations.LoadblkAssemblesWords := by
  refine ⟨fun n _ => rfl, fun s n => ⟨fun hout => ?_, fun hin hw => ?_, fun hin hw => ?_⟩⟩
  · exact exec_rejected (errorOf_range rfl rfl hout)
  · rw [exec, execLoadblk, checked_ok (errorOf_loadblk_none hin)]
    exact exists_reading_fault hw _
  · refine ⟨_, exec_done (errorOf_loadblk_none hin) hw, rfl, fun i b0 b1 b2 b3 h0 h1 h2 h3 => ?_⟩
    have hword : (blockAt s.mem (blockBase n s))[i] = le32 b0 b1 b2 b3 := by
      rw [blockAt_getElem, blockBase, base, byteAt_of_read h0, byteAt_of_read h1, byteAt_of_read h2,
        byteAt_of_read h3]
    exact (congrArg BitVec.toNat hword).trans (le32_toNat b0 b1 b2 b3)

/-- Settles O24: INIT always completes with `initH`, and the reset value of H is IV itself. -/
theorem initLoadsIV : Obligations.InitLoadsIV := by
  refine ⟨rfl, exec_init, fun t ht => ?_⟩
  rw [exec_init] at ht
  cases ht
  rfl

/-- Settles O25: FINAL always completes with `latchOut`, which latches the same H again; `ser_getElem?` gives the
bytes, `ser_iv` those after reset. -/
theorem finalLatchesState : Obligations.FinalLatchesState := by
  refine ⟨rfl, fun s => ⟨_, exec_final s, rfl, exec_final _, ser_getElem? s.h⟩, fun t ht => ?_⟩
  rw [exec_final] at ht
  cases ht
  exact ser_iv

end Sys2Proof.Machine

/-! The errors at complete: which code a command leaves in ECODE and ERR (60_exceptions.md R223 to R225), and that a
rejection writes STATUS alone (R221). -/

namespace Sys2Proof.Machine

/-! ### When DIGEST is rejected (60_exceptions.md R223, R224) -/

theorem errorOf_digest_unaligned {s : State} (h : len s % 64 ≠ 0) : errorOf .digest s = some .unalignedLen :=
  if_pos (bne_iff_ne.2 h)

theorem errorOf_digest_range {s : State} (h0 : len s % 64 = 0) (h : s.params.memSize < base s + len s) :
    errorOf .digest s = some .range :=
  errorOf_range (bne_eq_false_iff_eq.2 h0) rfl h

theorem errorOf_ne_unalignedLen {i : Instr} (hi : i ≠ .digest) (s : State) : errorOf i s ≠ some .unalignedLen := by
  intro he
  rcases errorOf_some_cases he with ⟨-, hdigest⟩ | hrange
  · exact hi hdigest
  · cases hrange

/-! ### STATUS after a complete step (30_encoding.md R101) -/

section
variable {s t : State} {i : Instr}

/-- ECODE takes the command's error, and stays where there is none. -/
theorem exec_ecode (h : exec i s = .next t) : t.status.ecode = (errorOf i s).getD s.status.ecode := by
  rcases exec_next h with ⟨c, he, rfl⟩ | ⟨he, -, rfl⟩
  · simp [he, Status.rejected]
  · simp [he, effectOf_status, Status.completed]

/-- From ERR = 0, which every running command has, only an error ends with ERR = 1. -/
theorem exec_err_reject (h : exec i s = .next t) (hs : s.status.err = false) (ht : t.status.err = true) :
    ∃ c, errorOf i s = some c ∧ t = reject c s := by
  rcases exec_next h with hrej | ⟨-, -, rfl⟩
  · exact hrej
  · simp [effectOf_status, Status.completed, hs] at ht

end

/-! ### The obligations -/

/-- Settles O42: each footprint end beyond MEM_SIZE is RANGE by `errorOf_range`, and ECODE stays where a command has
no error. -/
theorem rangeRejectsWholeCommand : Obligations.RangeRejectsWholeCommand := by
  refine fun s => ⟨fun hout => ?_, fun n hout => ?_, fun haligned hout => ?_, fun i t hi hs ht => ?_⟩
  · have hpadded : s.params.memSize < base s + paddedLen (len s) := by rwa [paddedLen_eq]
    exact ⟨exec_rejected (errorOf_range rfl rfl hpadded), exec_rejected (errorOf_range rfl rfl hpadded)⟩
  · exact exec_rejected (errorOf_range rfl rfl hout)
  · exact exec_rejected (errorOf_digest_range haligned hout)
  · have he : errorOf i s = none := by rcases hi with rfl | rfl | rfl <;> rfl
    rwa [exec_ecode ht, he]

/-- Settles O43: UNALIGNED_LEN comes before RANGE in `errorOf`, and no command but DIGEST has it as its error. -/
theorem unalignedDigestRejected : Obligations.UnalignedDigestRejected := by
  refine ⟨fun s hlen => exec_rejected (errorOf_digest_unaligned hlen), fun s t i hi hs ht => ?_⟩
  rw [exec_ecode ht]
  cases he : errorOf i s with
  | none => exact hs
  | some c => exact fun hc => errorOf_ne_unalignedLen hi s (he.trans (congrArg some hc))

/-- Settles O44: a running command has ERR = 0, so ERR = 1 after it is a rejection, `reject` of the command's error. -/
theorem rejectionIsPrecise : Obligations.RejectionIsPrecise := by
  intro s t i hbusy hcoherent ht herr
  obtain ⟨-, hs, -⟩ := Status.coherent_busy hbusy hcoherent
  obtain ⟨c, he, rfl⟩ := exec_err_reject ht hs herr
  exact ⟨c, (errorOf_some_cases he).imp_left And.left, rfl⟩

end Sys2Proof.Machine

/-! The command word both ways: the fields that decoding reads, and that they determine the word
(30_encoding.md R90 to R94). -/

namespace Sys2Proof

/-! ### The fields of a command (30_encoding.md R91, R93) -/

/-- OP of a command (30_encoding.md R91). -/
def opCode : Instr → BitVec 4
  | .init => 1#4
  | .pad => 2#4
  | .loadblk _ => 3#4
  | .compress => 4#4
  | .final => 5#4
  | .digest => 6#4
  | .hash => 7#4

/-- IMM of a command: LOADBLK's n, 0 otherwise (30_encoding.md R93). -/
def immCode : Instr → BitVec 24
  | .loadblk n => BitVec.ofNat 24 n
  | .init | .pad | .compress | .final | .digest | .hash => 0#24

section
variable {w v : Word} {i : Instr}

/-- The three fields cover the word. -/
theorem word_ext (hop : opField w = opField v) (hrsv : rsvField w = rsvField v) (himm : immField w = immField v) :
    w = v := by
  apply BitVec.eq_of_getLsbD_eq
  intro k hk
  have hbit {n : Nat} (start : Nat) (h : w.extractLsb' start n = v.extractLsb' start n) (h1 : start ≤ k)
      (h2 : k < start + n) : w.getLsbD k = v.getLsbD k := by
    have := congrArg (·.getLsbD (k - start)) h
    simpa [BitVec.getLsbD_extractLsb', show k - start < n by omega, Nat.add_sub_cancel' h1] using this
  by_cases h4 : k < 4
  · exact hbit 0 hop (by omega) h4
  by_cases h8 : k < 8
  · exact hbit 4 hrsv (by omega) h8
  · exact hbit 8 himm (by omega) hk

theorem wellFormed_loadblk (n : Nat) : (Instr.loadblk n).wellFormed = true ↔ n ≤ 0xFFFFFF := decide_eq_true_iff

theorem encode_fields (hi : i.wellFormed = true) :
    opField (encode i) = opCode i ∧ rsvField (encode i) = 0#4 ∧ immField (encode i) = immCode i := by
  cases i with
  | loadblk n =>
    obtain ⟨hrsv, hop, himm⟩ := Laws.WordFields.loadblk n hi
    refine ⟨hop, hrsv, BitVec.eq_of_toNat_eq ?_⟩
    rw [wellFormed_loadblk] at hi
    rw [himm, immCode, BitVec.toNat_ofNat, Nat.mod_eq_of_lt (by omega)]
  | _ => exact ⟨rfl, rfl, rfl⟩

/-! ### Decoding reads the fields (30_encoding.md R92) -/

theorem withRsvZero_eq_ok {j : Instr} : withRsvZero w i = .ok j ↔ rsvField w = 0#4 ∧ i = j := by
  unfold withRsvZero
  split <;> simp [*]

theorem withImmZero_eq_ok {j : Instr} : withImmZero w i = .ok j ↔ immField w = 0#24 ∧ rsvField w = 0#4 ∧ i = j := by
  unfold withImmZero
  split <;> simp [*, withRsvZero_eq_ok]

/-- A word with the fields of a well-formed command decodes to it. -/
theorem decode_of_fields (hi : i.wellFormed = true) (hop : opField w = opCode i) (hrsv : rsvField w = 0#4)
    (himm : immField w = immCode i) : decode w = .ok i := by
  rw [decode, hop]
  cases i with
  | loadblk n =>
    rw [wellFormed_loadblk] at hi
    refine withRsvZero_eq_ok.2 ⟨hrsv, ?_⟩
    rw [himm, immCode, BitVec.toNat_ofNat, Nat.mod_eq_of_lt (by omega)]
  | _ => exact withImmZero_eq_ok.2 ⟨himm, hrsv, rfl⟩

theorem opField_of_toNat {n : Nat} (h : (opField w).toNat = n) : opField w = BitVec.ofNat 4 n := by
  rw [← h, BitVec.ofNat_toNat, BitVec.setWidth_eq]

/-- A word that decodes has the fields of the command it stands for. -/
theorem fields_of_decode (h : decode w = .ok i) :
    i.wellFormed = true ∧ opField w = opCode i ∧ rsvField w = 0#4 ∧ immField w = immCode i := by
  have himmOf {j : Instr} (hj : withImmZero w j = .ok i) (hwf : j.wellFormed = true) (hcode : immCode j = 0#24)
      (hop : opField w = opCode j) :
      i.wellFormed = true ∧ opField w = opCode i ∧ rsvField w = 0#4 ∧ immField w = immCode i := by
    obtain ⟨himm, hrsv, rfl⟩ := withImmZero_eq_ok.1 hj
    exact ⟨hwf, hop, hrsv, himm.trans hcode.symm⟩
  unfold decode at h
  split at h
  case h_3 hop =>
    obtain ⟨hrsv, rfl⟩ := withRsvZero_eq_ok.1 h
    refine ⟨(wellFormed_loadblk _).2 (by omega), opField_of_toNat hop, hrsv, ?_⟩
    rw [immCode, BitVec.ofNat_toNat, BitVec.setWidth_eq]
  case h_8 => cases h
  all_goals exact himmOf h rfl rfl (opField_of_toNat ‹_›)

theorem decode_encode (hi : i.wellFormed = true) : decode (encode i) = .ok i := by
  obtain ⟨hop, hrsv, himm⟩ := encode_fields hi
  exact decode_of_fields hi hop hrsv himm

/-- The only word of a command is its encoding. -/
theorem decode_eq_ok_iff : decode w = .ok i ↔ i.wellFormed = true ∧ w = encode i := by
  refine ⟨fun h => ?_, fun ⟨hi, hw⟩ => hw ▸ decode_encode hi⟩
  obtain ⟨hi, hop, hrsv, himm⟩ := fields_of_decode h
  obtain ⟨eop, ersv, eimm⟩ := encode_fields hi
  exact ⟨hi, word_ext (hop.trans eop.symm) (hrsv.trans ersv.symm) (himm.trans eimm.symm)⟩

/-! ### Legal words decode (30_encoding.md R100) -/

theorem legal_of_decode (h : decode w = .ok i) : legal w = true := by
  obtain ⟨-, hop, hrsv, himm⟩ := fields_of_decode h
  rw [legal_iff, hop, hrsv, himm]
  cases i with
  | loadblk n => simp [opCode]
  | _ => simp [opCode, immCode]

theorem decode_of_legal (h : legal w = true) : ∃ i, decode w = .ok i := by
  obtain ⟨hlow, hhigh, hrsv, himm⟩ := (legal_iff w).1 h
  by_cases h3 : opField w = 3#4
  · exact ⟨.loadblk (immField w).toNat, decode_of_fields ((wellFormed_loadblk _).2 (by omega)) h3 hrsv
      (by rw [immCode, BitVec.ofNat_toNat, BitVec.setWidth_eq])⟩
  have himm := himm.resolve_left h3
  have hcode : ∃ i ∈ [Instr.init, .pad, .compress, .final, .digest, .hash],
      i.wellFormed = true ∧ opField w = opCode i ∧ immCode i = 0#24 := by
    generalize opField w = op at hlow hhigh h3
    revert op
    decide
  obtain ⟨i, -, hi, hop, hzero⟩ := hcode
  exact ⟨i, decode_of_fields hi hop hrsv (himm.trans hzero.symm)⟩

theorem legal_iff_decode : legal w = true ↔ ∃ i, decode w = .ok i :=
  ⟨decode_of_legal, fun ⟨_, h⟩ => legal_of_decode h⟩

end

/-! ### The obligations -/

/-- Settles O2: the encoding of a well-formed command has the command's fields, and decoding reads those. -/
theorem decodeEncodeRoundTrip : Obligations.DecodeEncodeRoundTrip := fun _ => decode_encode

/-- Settles O1: the only word of a command is its encoding, and a legal word has the fields of some command. -/
theorem commandWordsAreExactly : Obligations.CommandWordsAreExactly := by
  refine ⟨fun w i => decode_eq_ok_iff.trans ?_, fun w => legal_iff_decode⟩
  cases i with
  | loadblk n => exact and_congr_left' (wellFormed_loadblk n)
  | _ => exact and_iff_right rfl

/-- Settles O5: closed words. -/
theorem vectorWordsDecode : Obligations.VectorWordsDecode := by
  unfold Obligations.VectorWordsDecode
  decide

end Sys2Proof

/-! A complete step whole (30_encoding.md R101): every command is a check, a read and an effect; what it leaves in
STATUS, which registers it can change (30_encoding.md section 5), and that OVR and the reads do not disturb it
(60_exceptions.md section 1, 20_memory.md R64). -/

namespace Sys2Proof.Machine

/-! ### One form for every command -/

/-- How many bytes a command reads (20_memory.md R64). -/
def readCount : Instr → State → Nat
  | .loadblk _, _ => 64
  | .digest, s => len s
  | .hash, s => paddedLen (len s)
  | .init, _ | .pad, _ | .compress, _ | .final, _ => 0

/-- The MEM a command reads: HASH reads after its own tail is written (43_sequencer.md R192). -/
def readSource : Instr → State → Mem
  | .hash, s => (padEffect s).mem
  | .init, s | .pad, s | .loadblk _, s | .compress, s | .final, s | .digest, s => s.mem

section
variable {i : Instr} {s t : State}

theorem exec_eq (i : Instr) (s : State) :
    exec i s = checked i s
      (reading i (readSource i s) (readRange i s).1 (readCount i s) (.next (finish (effectOf i s)))) := by
  cases i <;> rfl

theorem exec_of_no_error (he : errorOf i s = none) :
    exec i s = reading i (readSource i s) (readRange i s).1 (readCount i s) (.next (finish (effectOf i s))) := by
  rw [exec_eq, checked_ok he]

theorem exec_of_written (he : errorOf i s = none)
    (hw : Written (readSource i s) (readRange i s).1 (readCount i s)) :
    exec i s = .next (finish (effectOf i s)) := by
  rw [exec_of_no_error he, reading_ok hw]

theorem exec_of_unwritten {off : Nat} (he : errorOf i s = none)
    (hu : firstUnwritten (readSource i s) (readRange i s).1 (readCount i s) = some off) :
    exec i s = .fault (.uninitRead i off) := by
  rw [exec_of_no_error he, reading_fault hu]

theorem exec_ne_refused (i : Instr) (s : State) (r : Refusal) : exec i s ≠ .refused r := by
  rw [exec_eq, checked, reading]
  split
  · nofun
  · split <;> nofun

/-! ### STATUS after a complete step -/

theorem exec_status (h : exec i s = .next t) :
    t.status = match errorOf i s with
      | some c => s.status.rejected c
      | none => s.status.completed := by
  rcases exec_next h with ⟨c, he, rfl⟩ | ⟨he, -, rfl⟩
  · rw [he, reject_status]
  · rw [he, finish_status, effectOf_status]

theorem exec_busy (h : exec i s = .next t) : t.status.busy = false := by
  rw [exec_status h]
  split <;> rfl

theorem exec_ovr (h : exec i s = .next t) : t.status.ovr = s.status.ovr := by
  rw [exec_status h]
  split <;> rfl

theorem errorOf_ne_none_code (s : State) (i : Instr) : errorOf i s ≠ some .none := by
  intro h
  rcases errorOf_some_cases h with ⟨hc, -⟩ | hc <;> cases hc

/-- A completion from the STATUS of a running command is coherent (10_state.md R26). -/
theorem exec_coherent (hb : s.status.busy = true) (hs : s.status.coherent = true) (h : exec i s = .next t) :
    t.status.coherent = true := by
  obtain ⟨hdone, herr, hecode⟩ := Status.coherent_busy hb hs
  rw [exec_status h]
  split
  next c he =>
    have hc : c ≠ .none := fun hc => errorOf_ne_none_code s i (hc ▸ he)
    simp [Status.coherent, Status.rejected, hdone, hc]
  next => simp [Status.coherent, Status.completed, herr, hecode]

/-! ### Which registers a complete step can change (30_encoding.md section 5) -/

theorem digestEffect_mem (n : Nat) (s : State) : (digestEffect n s).mem = s.mem := by rw [digestEffect_frame]

theorem digestEffect_plen (n : Nat) (s : State) : (digestEffect n s).plen = s.plen := by rw [digestEffect_frame]

theorem effectOf_frame (i : Instr) (s : State) :
    effectOf i s =
      { s with
        h := (effectOf i s).h
        x := (effectOf i s).x
        vl := (effectOf i s).vl
        vr := (effectOf i s).vr
        dout := (effectOf i s).dout
        mem := (effectOf i s).mem
        plen := (effectOf i s).plen } := by
  cases i with
  | compress => simp only [effectOf, compressEffect]
  | loadblk n => simp only [effectOf, loadBlock]
  | digest =>
    simp only [effectOf, digestEffect_mem, digestEffect_plen]
    exact digestEffect_frame (len s) s
  | hash =>
    have hframe := digestEffect_frame (paddedLen (len s)) (padEffect s)
    simp only [effectOf, digestEffect_mem, digestEffect_plen]
    generalize digestEffect (paddedLen (len s)) (padEffect s) = u at hframe ⊢
    rw [hframe]
    rfl
  | _ => rfl

/-- MEM and PLEN after an effect: as they were, or PAD's (30_encoding.md R104). -/
theorem effectOf_stores (i : Instr) (s : State) :
    ((effectOf i s).mem = s.mem ∧ (effectOf i s).plen = s.plen) ∨
      ((i = .pad ∨ i = .hash) ∧ (effectOf i s).mem = (padEffect s).mem ∧
        (effectOf i s).plen = (padEffect s).plen) := by
  cases i with
  | pad | hash => exact .inr ⟨by simp, by simp only [effectOf, digestEffect_mem, digestEffect_plen, and_self]⟩
  | init | loadblk | compress | final | digest =>
    exact .inl (by simp [effectOf, digestEffect_mem, digestEffect_plen])

/-- Whatever the command, these alone can change. -/
theorem exec_frame (h : exec i s = .next t) :
    t = { s with
      status := t.status
      h := t.h
      x := t.x
      vl := t.vl
      vr := t.vr
      dout := t.dout
      mem := t.mem
      plen := t.plen } := by
  rcases exec_next h with ⟨c, -, rfl⟩ | ⟨-, -, rfl⟩
  · rfl
  · have hframe := effectOf_frame i s
    generalize effectOf i s = u at hframe ⊢
    rw [hframe]
    rfl

/-- No complete step touches these fields (30_encoding.md section 5; log entry 7). -/
theorem exec_unchanged (h : exec i s = .next t) :
    t.msgBase = s.msgBase ∧ t.msgLen = s.msgLen ∧ t.cmdl = s.cmdl ∧ t.params = s.params ∧ t.inputs = s.inputs ∧
      t.turns = s.turns ∧ t.replies = s.replies ∧ t.draws = s.draws ∧ t.stepCtr = s.stepCtr ∧ t.blkCtr = s.blkCtr ∧
      t.fsm = s.fsm := by
  rw [exec_frame h]
  exact ⟨rfl, rfl, rfl, rfl, rfl, rfl, rfl, rfl, rfl, rfl, rfl⟩

/-- A field that the effect of command i keeps is kept by its complete step. -/
theorem exec_keeps {α : Type} {f : State → α} (h : exec i s = .next t) (hreject : ∀ c, f (reject c s) = f s)
    (hfinish : ∀ u, f (finish u) = f u) {p : Prop} (heffect : f (effectOf i s) = f s ∨ p) : f t = f s ∨ p := by
  rcases exec_next h with ⟨c, -, rfl⟩ | ⟨-, -, rfl⟩
  · exact .inl (hreject c)
  · rwa [hfinish]

theorem exec_h (h : exec i s = .next t) :
    t.h = s.h ∨ i = .init ∨ i = .compress ∨ i = .digest ∨ i = .hash :=
  exec_keeps h (reject_h s) finish_h (by cases i <;> simp [effectOf])

theorem exec_x (h : exec i s = .next t) : t.x = s.x ∨ (∃ n, i = .loadblk n) ∨ i = .digest ∨ i = .hash :=
  exec_keeps h (reject_x s) finish_x (by cases i <;> simp [effectOf])

theorem exec_dout (h : exec i s = .next t) : t.dout = s.dout ∨ i = .final ∨ i = .digest ∨ i = .hash :=
  exec_keeps h (reject_dout s) finish_dout (by cases i <;> simp [effectOf])

theorem exec_plen (h : exec i s = .next t) : t.plen = s.plen ∨ i = .pad ∨ i = .hash :=
  exec_keeps h (reject_plen s) finish_plen (by cases i <;> simp [effectOf, digestEffect_plen])

theorem exec_mem (h : exec i s = .next t) : t.mem = s.mem ∨ i = .pad ∨ i = .hash :=
  exec_keeps h (reject_mem s) finish_mem (by cases i <;> simp [effectOf, digestEffect_mem])

theorem exec_lanes (h : exec i s = .next t) :
    (t.vl = s.vl ∧ t.vr = s.vr) ∨ i = .compress ∨ i = .digest ∨ i = .hash := by
  have hpair := exec_keeps (f := fun u => (u.vl, u.vr)) h (fun _ => rfl) (fun _ => rfl)
    (p := i = .compress ∨ i = .digest ∨ i = .hash) (by cases i <;> simp [effectOf])
  rwa [Prod.mk.injEq] at hpair

/-- The MEM a complete step leaves: as it was, or PAD's (30_encoding.md R104). -/
theorem exec_mem_cases (h : exec i s = .next t) :
    t.mem = s.mem ∨ (errorOf i s = none ∧ (i = .pad ∨ i = .hash) ∧ t.mem = (padEffect s).mem) := by
  rcases exec_next h with ⟨c, -, rfl⟩ | ⟨he, -, rfl⟩
  · exact .inl rfl
  · exact (effectOf_stores i s).imp And.left fun ⟨hi, hmem, _⟩ => ⟨he, hi, hmem⟩

end

/-! ### What the digest does not see -/

/-- A change of the state that no part of DIGEST's effect sees or undoes. -/
structure Unseen (f : State → State) : Prop where
  base : ∀ s, Machine.base (f s) = Machine.base s
  initH : ∀ s, Machine.initH (f s) = f (Machine.initH s)
  loadBlock : ∀ s a, Machine.loadBlock a (f s) = f (Machine.loadBlock a s)
  compressEffect : ∀ s, Machine.compressEffect (f s) = f (Machine.compressEffect s)
  latchOut : ∀ s, Machine.latchOut (f s) = f (Machine.latchOut s)

theorem digestEffect_unseen {f : State → State} (hf : Unseen f) (n : Nat) (s : State) :
    digestEffect n (f s) = f (digestEffect n s) := by
  rw [digestEffect, hf.base, hf.initH, digestBlocks_commutes _ _ _ f hf.loadBlock hf.compressEffect, hf.latchOut,
    digestEffect]

/-! ### OVR (60_exceptions.md section 1) -/

/-- s with OVR set to o. -/
def withOvr (o : Bool) (s : State) : State := { s with status := { s.status with ovr := o } }

theorem withOvr_unseen (o : Bool) : Unseen (withOvr o) where
  base _ := rfl
  initH _ := rfl
  loadBlock _ _ := rfl
  compressEffect s := by simp only [withOvr, compressEffect]
  latchOut _ := rfl

theorem effectOf_withOvr (i : Instr) (o : Bool) (s : State) :
    effectOf i (withOvr o s) = withOvr o (effectOf i s) := by
  cases i with
  | compress => exact (withOvr_unseen o).compressEffect s
  | digest => exact digestEffect_unseen (withOvr_unseen o) (len s) s
  | hash => exact digestEffect_unseen (withOvr_unseen o) (paddedLen (len s)) (padEffect s)
  | _ => rfl

theorem seenThrough_checked (f : State → State) (i : Instr) (s : State) (r : Result) :
    seenThrough f (checked i s r) =
      match errorOf i s with
      | some c => .next (f (reject c s))
      | none => seenThrough f r := by
  unfold checked
  cases errorOf i s <;> rfl

theorem seenThrough_reading (f : State → State) (i : Instr) (m : Mem) (a n : Nat) (r : Result) :
    seenThrough f (reading i m a n r) = reading i m a n (seenThrough f r) := by
  unfold reading
  cases firstUnwritten m a n <;> rfl

/-! ### The obligations -/

/-- Settles O45: the command's error decides what STATUS holds (`exec_status`). -/
theorem completionReportsOnce : Obligations.CompletionReportsOnce := by
  intro s t i hb hs h
  obtain ⟨hdone, herr, -⟩ := Status.coherent_busy hb hs
  have hstatus := exec_status h
  have hreport : (t.status.done = true ↔ t.status.err = false) ∧ (t.status.done = true ↔ errorOf i s = none) := by
    cases he : errorOf i s with
    | some c =>
      rw [he] at hstatus
      simp [hstatus, Status.rejected, hdone]
    | none =>
      rw [he] at hstatus
      simp [hstatus, Status.completed, herr]
  exact ⟨exec_busy h, hreport.1, hreport.2, exec_coherent hb hs h⟩

/-- Settles O46: the check, the read and the effect of a command all pass OVR by. -/
theorem overrunDisturbsNothing : Obligations.OverrunDisturbsNothing := by
  intro s i o
  change exec i (withOvr o s) = seenThrough (withOvr o) (exec i s)
  have herror : errorOf i (withOvr o s) = errorOf i s := by cases i <;> rfl
  have hsource : readSource i (withOvr o s) = readSource i s := by cases i <;> rfl
  have hrange : readRange i (withOvr o s) = readRange i s := by cases i <;> rfl
  have hcount : readCount i (withOvr o s) = readCount i s := by cases i <;> rfl
  rw [exec_eq, exec_eq, seenThrough_checked, seenThrough_reading, checked, herror, hsource, hrange, hcount,
    effectOf_withOvr]
  rfl

/-- Settles O47: the lowest unwritten offset of the operand is the one the command's read stops at; HASH's tail stands
above the message. -/
theorem uninitReadNamesOffset : Obligations.UninitReadNamesOffset := by
  intro s i a n off hi he hlow hhigh hnone hbelow
  refine exec_of_unwritten he ((firstUnwritten_some_iff _ _ _ _).2 ?_)
  rcases hi with ⟨k, rfl, rfl, rfl⟩ | ⟨rfl | rfl, rfl, rfl⟩
  · exact ⟨hlow, hhigh, hnone, hbelow⟩
  · exact ⟨hlow, hhigh, hnone, hbelow⟩
  · have hmsg (k : Nat) (hk : k ≤ off) : Mem.read? (padEffect s).mem k = Mem.read? s.mem k :=
      read_padEffect_before s (Nat.lt_of_le_of_lt hk hhigh)
    have hlen : len s ≤ paddedLen (len s) := by unfold paddedLen; omega
    refine ⟨hlow, Nat.lt_of_lt_of_le hhigh (Nat.add_le_add_left hlen _), (hmsg off le_rfl).trans hnone,
      fun k h1 h2 => ?_⟩
    rw [readSource, hmsg k h2.le]
    exact hbelow k h1 h2

/-- Settles O50: a complete step changes no other field (`exec_unchanged`), and each of these only by its commands. -/
theorem nonStoringCommandsFrame : Obligations.NonStoringCommandsFrame := by
  intro s t i hi h
  have hpad : i ≠ .pad := by rintro rfl; simp at hi
  have hhash : i ≠ .hash := by rintro rfl; simp at hi
  obtain ⟨hbase, hlen, hcmdl, hparams, hinputs, hturns, hreplies, hdraws, hrest⟩ := exec_unchanged h
  have hmem : t.mem = s.mem := by simpa [hpad, hhash] using exec_mem h
  have hplen : t.plen = s.plen := by simpa [hpad, hhash] using exec_plen h
  have hh := exec_h h
  have hdout := exec_dout h
  have hx := exec_x h
  have hlanes := exec_lanes h
  refine ⟨fun off => by rw [hmem], hbase, hlen, hplen, hcmdl, hparams, hinputs, hturns, hreplies, hdraws, exec_ovr h,
    ?_, ?_, ?_, ?_, hrest⟩
  · intro h1 h2 h3
    simpa [h1, h2, h3, hhash] using hh
  · intro h1 h2
    simpa [h1, h2, hhash] using hdout
  · intro h1 h2
    simpa [h1, h2, hhash] using hx
  · intro h1 h2
    simpa [h1, h2, hhash] using hlanes

/-- Settles O51: MEM is as it was or as PAD's effect leaves it, which is the old one outside the tail. -/
theorem storingCommandsFrame : Obligations.StoringCommandsFrame := by
  intro s t i hi h
  obtain ⟨hbase, hlen, hcmdl, hparams, hinputs, hturns, hreplies, hdraws, hrest⟩ := exec_unchanged h
  refine ⟨fun off hoff => ?_, hbase, hlen, hcmdl, hparams, hinputs, hturns, hreplies, hdraws, exec_ovr h, ?_, hrest⟩
  · rcases exec_mem_cases h with hmem | ⟨-, -, hmem⟩
    · rw [hmem]
    · rw [hmem]
      exact hoff.elim (read_padEffect_before s) (read_padEffect_after s)
  · rintro rfl
    exact ⟨by simpa using exec_h h, by simpa using exec_x h, by simpa using exec_dout h, by simpa using exec_lanes h⟩

end Sys2Proof.Machine

/-! One step of the machine: who moves, what one access can do, and what that changes over the whole machine
(20_memory.md R73, 10_state.md R37, 70_reset_and_hazards.md sections 4 and 5). -/

namespace Sys2Proof.Machine

/-! ### The STATUS word (10_state.md R26) -/

theorem Status.toWord_flags (s : Status) :
    s.toWord.getLsbD 0 = s.busy ∧ s.toWord.getLsbD 1 = s.done ∧ s.toWord.getLsbD 2 = s.err ∧
      s.toWord.getLsbD 3 = s.ovr := by
  simp only [Status.toWord, BitVec.getLsbD_append, BitVec.getLsbD_ofBool]
  simp

/-- Above the flags stand the bits of ECODE's code, and zeros. -/
theorem Status.toWord_getLsbD_add_four (s : Status) (k : Nat) :
    s.toWord.getLsbD (4 + k) = s.ecode.toBits.getLsbD k := by
  have hpeel (n : Nat) : (n + 1) + k - 1 = n + k ∧ ¬(n + 1) + k < 1 := by omega
  simp only [Status.toWord, BitVec.getLsbD_append, hpeel 3, hpeel 2, hpeel 1, hpeel 0, if_false, Nat.zero_add,
    BitVec.getLsbD_zero]
  split
  next => rfl
  next hk => rw [BitVec.getLsbD_of_ge _ _ (Nat.le_of_not_lt hk)]

theorem Status.toWord_ecode (s : Status) : s.toWord.extractLsb' 4 4 = s.ecode.toBits := by
  apply BitVec.eq_of_getLsbD_eq
  intro k hk
  rw [BitVec.getLsbD_extractLsb', s.toWord_getLsbD_add_four, decide_eq_true hk, Bool.true_and]

theorem Status.toWord_reserved (s : Status) : s.toWord.extractLsb' 8 24 = 0#24 := by
  apply BitVec.eq_of_getLsbD_eq
  intro k hk
  rw [BitVec.getLsbD_extractLsb', show 8 + k = 4 + (4 + k) by omega, s.toWord_getLsbD_add_four,
    BitVec.getLsbD_of_ge _ _ (by omega), Bool.and_false, BitVec.getLsbD_zero]

section
variable {s t : State} {i : Instr} {e : Input} {rest : List Input}

/-! ### The latched command (30_encoding.md R101) -/

theorem fetch_eq_some : fetch s = some i ↔ decode s.cmdl = .ok i := by
  unfold fetch
  cases decode s.cmdl <;> simp [Except.toOption]

theorem coreStep_of_decode (h : decode s.cmdl = .ok i) : coreStep s = exec i s := by
  rw [coreStep, fetch_eq_some.2 h]

theorem running_of_busy (hb : s.status.busy = true) (h : decode s.cmdl = .ok i) : running s = some i := by
  rw [running, if_pos hb, fetch_eq_some.2 h]

theorem running_of_idle (hb : s.status.busy = false) : running s = none := by simp [running, hb]

/-! ### Who moves (60_exceptions.md R232) -/

theorem nextAgent_core (hb : s.status.busy = true) (h : s.inputs = [] ∨ s.turns.head? ≠ some .host) :
    nextAgent s = some .core := by
  rw [nextAgent, if_pos hb]
  split
  next hinputs hturns => simp [hinputs, hturns] at h
  next => rfl

theorem nextAgent_host {ts : List Agent} (hb : s.status.busy = true) (hin : s.inputs = e :: rest)
    (hts : s.turns = .host :: ts) : nextAgent s = some .host := by
  simp [nextAgent, hb, hin, hts]

theorem nextAgent_idle (hb : s.status.busy = false) (hin : s.inputs = e :: rest) : nextAgent s = some .host := by
  simp [nextAgent, hb, hin]

theorem nextAgent_eq_none : nextAgent s = none ↔ s.ended = true := by
  unfold nextAgent State.ended
  split
  next hb => split <;> simp [hb]
  next hb => split <;> simp_all

/-- A Host that moves while BUSY = 1 takes its turn. -/
theorem turns_of_nextAgent_host (hb : s.status.busy = true) (h : nextAgent s = some .host) :
    ∃ ts, s.turns = .host :: ts := by
  rw [nextAgent, if_pos hb] at h
  split at h
  next ts _ hturns => exact ⟨_, hturns⟩
  next => cases h

theorem takeTurn_of_busy (hb : s.status.busy = true) :
    takeTurn s = { s with turns := if s.inputs = [] then s.turns else s.turns.tail } := by
  by_cases hin : s.inputs = []
  · rw [if_pos hin, takeTurn, if_neg (by simp [contended, hin])]
  · rw [if_neg hin, takeTurn, if_pos (by simp [contended, hb, hin])]

theorem takeTurn_of_idle (hb : s.status.busy = false) : takeTurn s = s := by simp [takeTurn, contended, hb]

theorem step_core (hb : s.status.busy = true) (h : s.inputs = [] ∨ s.turns.head? ≠ some .host) :
    step s = coreStep { s with turns := if s.inputs = [] then s.turns else s.turns.tail } := by
  rw [step, nextAgent_core hb h, takeTurn_of_busy hb]

theorem step_host {ts : List Agent} (hb : s.status.busy = true) (hin : s.inputs = e :: rest)
    (hts : s.turns = .host :: ts) : step s = access e { s with inputs := rest, turns := ts } := by
  rw [step, nextAgent_host hb hin hts, takeTurn_of_busy hb]
  simp only [hostStep, hin, hts, reduceCtorEq, if_false, List.tail_cons]

theorem step_idle (hb : s.status.busy = false) (hin : s.inputs = e :: rest) :
    step s = access e { s with inputs := rest } := by
  rw [step, nextAgent_idle hb hin, takeTurn_of_idle hb]
  simp only [hostStep, hin]

/-- The Core's step over the word of a command. -/
theorem step_encoded (hi : i.wellFormed = true) (hw : s.cmdl = encode i) (hb : s.status.busy = true)
    (h : s.inputs = [] ∨ s.turns.head? ≠ some .host) :
    step s = exec i { s with turns := if s.inputs = [] then s.turns else s.turns.tail } :=
  (step_core hb h).trans (coreStep_of_decode (hw ▸ decode_encode hi))

theorem step_ended (h : s.ended = true) : step s = .next s := by rw [step, nextAgent_eq_none.2 h]

/-! ### What one access can do -/

/-- The state an access leaves, one case for each kind of access that completes. -/
inductive Accessed (s : State) : Input → State → Prop
  | regRead (addr width : Nat) (r : Reg) : Accessed s (.regRead addr width) (readReg r s)
  | regWrite (addr width : Nat) (v : Word) (r : Reg) : Accessed s (.regWrite addr width v) (writeReg v s r)
  | memRead (off : Nat) : Accessed s (.memRead off) (readMem off s)
  | memWrite (off : Nat) (b : Byte) (inside : off < s.params.memSize) :
      Accessed s (.memWrite off b) { s with mem := Mem.write s.mem off b }
  | poll : Accessed s .poll (hostPoll s)
  | reset : Accessed s .reset (resetBlock s)

theorem accessed_of_next (h : access e s = .next t) : Accessed s e t := by
  cases e with
  | regRead addr width =>
    obtain ⟨r, -, rfl⟩ := hostRead_next h
    exact .regRead addr width r
  | regWrite addr width v =>
    obtain ⟨r, -, rfl⟩ := hostWrite_next h
    exact .regWrite addr width v r
  | memRead off =>
    obtain ⟨-, rfl⟩ := hostMemRead_next h
    exact .memRead off
  | memWrite off b =>
    obtain ⟨hin, -, rfl⟩ := hostMemWrite_next h
    exact .memWrite off b hin
  | poll =>
    cases h
    exact .poll
  | reset =>
    cases h
    exact .reset

theorem access_ne_refused (e : Input) (s : State) (r : Refusal) : access e s ≠ .refused r := by
  cases e with
  | regRead | regWrite | memRead => simp only [access, hostRead, hostWrite, hostMemRead]; split <;> nofun
  | memWrite => simp only [access, hostMemWrite]; split <;> (try split) <;> nofun
  | poll | reset => nofun

/-- Who moved, when a step answers a next state, and how. -/
theorem step_cases (h : step s = .next t) :
    (s.ended = true ∧ t = s) ∨
      (nextAgent s = some .host ∧
        ∃ e rest, s.inputs = e :: rest ∧ Accessed { takeTurn s with inputs := rest } e t) ∨
      (nextAgent s = some .core ∧ ∃ i, decode s.cmdl = .ok i ∧ exec i (takeTurn s) = .next t) := by
  rcases step_next h with ⟨hnone, rfl⟩ | ⟨hhost, hstep⟩ | ⟨hcore, i, hi, hexec⟩
  · exact .inl ⟨nextAgent_eq_none.1 hnone, rfl⟩
  · cases hin : s.inputs with
    | nil => cases hb : s.status.busy <;> simp [nextAgent, hin, hb] at hhost
    | cons e rest =>
      rw [hostStep, takeTurn_inputs, hin] at hstep
      exact .inr (.inl ⟨hhost, e, rest, rfl, accessed_of_next hstep⟩)
  · exact .inr (.inr ⟨hcore, i, fetch_eq_some.1 hi, hexec⟩)

/-! ### What an access leaves unchanged -/

/-- A register write can change these alone (10_state.md R37). -/
theorem writeReg_frame (v : Word) (s : State) (r : Reg) :
    writeReg v s r =
      { s with
        status := (writeReg v s r).status
        cmdl := (writeReg v s r).cmdl
        msgBase := (writeReg v s r).msgBase
        msgLen := (writeReg v s r).msgLen
        h := (writeReg v s r).h
        x := (writeReg v s r).x } := by
  cases r with
  | cmd => simp only [writeReg, unlessBusy, accept]; split <;> (try split) <;> rfl
  | msgBase | msgLen | h | x => simp only [writeReg, unlessBusy]; split <;> rfl
  | status | plen | reserved | dout => rfl

/-- POLL (30_encoding.md R112). -/
theorem hostPoll_eq (s : State) :
    hostPoll s = { s with
      replies := .word s.status.toWord :: s.replies
      inputs := if s.status.busy = true then .poll :: s.inputs else s.inputs } := by
  unfold hostPoll
  rw [readReg_of_exact rfl, regValue]
  split <;> rfl

theorem Accessed.params (h : Accessed s e t) : t.params = s.params := by
  cases h with
  | regRead => exact readReg_params s _
  | regWrite => rw [writeReg_frame]
  | memRead => exact readMem_params s _
  | poll => rw [hostPoll_eq]
  | memWrite | reset => rfl

theorem Accessed.turns (h : Accessed s e t) : t.turns = s.turns := by
  cases h with
  | regRead => exact readReg_turns s _
  | regWrite => rw [writeReg_frame]
  | memRead => exact readMem_turns s _
  | poll => rw [hostPoll_eq]
  | memWrite | reset => rfl

/-- No access adds one that is still to come, but a POLL while BUSY = 1. -/
theorem Accessed.inputs_length (h : Accessed s e t) :
    t.inputs.length ≤ s.inputs.length + (if s.status.busy = true then 1 else 0) := by
  cases h with
  | regRead => simp
  | regWrite => rw [writeReg_frame]; simp
  | memRead => simp
  | poll => rw [hostPoll_eq]; split <;> simp
  | memWrite | reset => exact Nat.le_add_right _ _

/-- Reset and register writes apart, an access changes no register. -/
theorem Accessed.registers (h : Accessed s e t) (hreset : e ≠ .reset)
    (hwrite : ∀ addr width v, e ≠ .regWrite addr width v) :
    t.h = s.h ∧ t.x = s.x ∧ t.msgBase = s.msgBase ∧ t.msgLen = s.msgLen := by
  cases h with
  | regRead => simp
  | regWrite addr width v => exact absurd rfl (hwrite addr width v)
  | memRead => simp
  | poll => simp [hostPoll_eq]
  | memWrite => exact ⟨rfl, rfl, rfl, rfl⟩
  | reset => exact absurd rfl hreset

/-- Reset apart, an access leaves the results of commands. -/
theorem Accessed.results (h : Accessed s e t) (hreset : e ≠ .reset) : t.dout = s.dout ∧ t.plen = s.plen := by
  cases h with
  | regRead => simp
  | regWrite => rw [writeReg_frame]; simp
  | memRead => simp
  | poll => simp [hostPoll_eq]
  | memWrite => exact ⟨rfl, rfl⟩
  | reset => exact absurd rfl hreset

end

/-! ### The obligations -/

/-- Settles O17: the flags bit by bit, then the code and the zeros above it. -/
theorem statusWordLayout : Obligations.StatusWordLayout := by
  intro s
  obtain ⟨hbusy, hdone, herr, hovr⟩ := s.toWord_flags
  refine ⟨hbusy, hdone, herr, hovr, ?_, s.toWord_reserved⟩
  rw [s.toWord_ecode]
  cases s.ecode <;> rfl

/-- Settles O6: the Core moves, uses up the turn, and runs what CMDL decodes to. -/
theorem stepRunsLatchedCommand : Obligations.StepRunsLatchedCommand :=
  fun _ _ hb hi h => (step_core hb h).trans (coreStep_of_decode hi)

/-- Settles O7: placing a word leaves a state of O6, and the turn it adds is used up. -/
theorem placedWordRunsNext : Obligations.PlacedWordRunsNext := by
  intro s i hi
  have hword : BitVec.ofNat 32 ((encode i).toNat % 2 ^ 32) = encode i := by
    rw [Nat.mod_eq_of_lt (encode i).isLt, BitVec.ofNat_toNat, BitVec.setWidth_eq]
  rw [State.withFetchWord, hword]
  refine (step_encoded hi rfl rfl ?_).trans ?_
  · cases hin : s.inputs <;> simp [latchWord, hin]
  · congr 1
    cases hin : s.inputs <;> simp [latchWord, hin, Status.accepted_eq]

/-- Settles O8: `nextAgent` reads `turns` exactly where both can move. -/
theorem stepInterleavesHostAndCore : Obligations.StepInterleavesHostAndCore := by
  refine ⟨fun s e rest ts hb hin => ?_, fun s e rest hb hin => step_idle hb hin, fun s h => step_ended h⟩
  have hcore {us : List Agent} (hus : us.head? ≠ some .host) :
      step { s with turns := us } = coreStep { s with turns := us.tail } := by
    rw [step_core (s := { s with turns := us }) hb (.inr hus), if_neg (by simp [hin])]
  exact ⟨step_host (s := { s with turns := .host :: ts }) hb hin rfl, hcore (by simp), hcore (by simp)⟩

/-- Settles O9: the first step is the accepted CMD write, after which `turns` is still empty and O6 applies. -/
theorem runStatementRunsCommand : Obligations.RunStatementRunsCommand := by
  intro s i rest hi hb hturns hin
  have hlegal := legal_of_decode (decode_encode hi)
  have haccept := access_cmdWrite { s with inputs := .poll :: rest } (encode i)
  rw [writeReg_cmd_of_idle (s := { s with inputs := .poll :: rest }) hb, accept_of_legal hlegal] at haccept
  refine ⟨_, (step_idle hb hin).trans haccept, rfl, ?_⟩
  refine (step_encoded hi rfl rfl (.inr (by simp [hturns]))).trans ?_
  simp [hturns]

/-- Settles O10: POLL reads STATUS exactly (`hostPoll_eq`), and BUSY is bit 0 of its word. -/
theorem pollWaitsForIdle : Obligations.PollWaitsForIdle := by
  intro s
  rw [access, hostPoll_eq, s.status.toWord_flags.1]
  refine ⟨?_, Iff.rfl⟩
  split <;> rfl

/-- Settles O11: a complete step clears BUSY, an access is used up, and the access a busy block may put back costs the
Host its turn. -/
theorem everyRunIsFinite : Obligations.EveryRunIsFinite := by
  intro s t hend h
  have hbusy : (if t.status.busy = true then 1 else 0) ≤ 1 := by split <;> omega
  rcases step_cases h with ⟨hended, -⟩ | ⟨hhost, e, rest, hin, hacc⟩ | ⟨hcore, i, -, hexec⟩
  · rw [hend] at hended
    cases hended
  · have hlength := hacc.inputs_length
    rw [State.stepsLeft, State.stepsLeft, hacc.turns, hin, List.length_cons]
    cases hb : s.status.busy with
    | false =>
      simp only [takeTurn_of_idle hb, hb, Bool.false_eq_true, if_false] at hlength ⊢
      omega
    | true =>
      obtain ⟨ts, hts⟩ := turns_of_nextAgent_host hb hhost
      simp only [takeTurn_of_busy hb, hb, hin, hts, if_true, reduceCtorEq, if_false, List.tail_cons,
        List.length_cons] at hlength ⊢
      omega
  · obtain ⟨-, -, -, -, hinputs, hturns, -⟩ := exec_unchanged hexec
    have hb := busy_of_nextAgent_core hcore
    have hspent : (takeTurn s).turns.length ≤ s.turns.length := by
      rw [takeTurn_of_busy hb]
      split <;> simp
    rw [State.stepsLeft, State.stepsLeft, hinputs, hturns, takeTurn_inputs, exec_busy hexec, hb]
    simp only [Bool.false_eq_true, if_false, if_true]
    omega

/-- Settles O52: of the accesses only a register write and a reset change registers, of the commands only those that
`exec_h`, `exec_x`, `exec_dout` and `exec_plen` name. -/
theorem registersChangeOnlyBy : Obligations.RegistersChangeOnlyBy := by
  intro s t h byReset byCommand byWrite
  rcases step_cases h with ⟨-, rfl⟩ | ⟨hhost, e, rest, hin, hacc⟩ | ⟨hcore, i, hi, hexec⟩
  · simp
  · have hhead : s.inputs.head? = some e := by rw [hin, List.head?_cons]
    have hparams := hacc.params
    by_cases hreset : byReset
    · simp [hreset, hparams]
    have hnotReset : e ≠ .reset := fun he => hreset ⟨hhost, he ▸ hhead⟩
    obtain ⟨hdout, hplen⟩ := hacc.results hnotReset
    by_cases hwrite : byWrite
    · simp [hwrite, hparams, hdout, hplen]
    have hregs := hacc.registers hnotReset fun addr width v he => hwrite ⟨hhost, addr, width, v, he ▸ hhead⟩
    simp [hregs, hparams, hdout, hplen]
  · have hby {j : Instr} (hj : i = j) : byCommand j := ⟨hcore, hj ▸ hi⟩
    obtain ⟨hbase, hlen, -, hparams, -⟩ := exec_unchanged hexec
    have hh := exec_h hexec
    have hx := exec_x hexec
    have hdout := exec_dout hexec
    have hplen := exec_plen hexec
    rw [takeTurn_h] at hh
    rw [takeTurn_x] at hx
    rw [takeTurn_dout] at hdout
    rw [takeTurn_plen] at hplen
    rw [takeTurn_msgBase] at hbase
    rw [takeTurn_msgLen] at hlen
    rw [takeTurn_params] at hparams
    refine ⟨fun hne => ?_, fun hne => ?_, fun hne => ?_, fun hne => ?_, fun hne => ?_, hparams⟩
    · rcases hdout.resolve_left hne with hj | hj | hj <;> simp [hby hj]
    · rcases hplen.resolve_left hne with hj | hj <;> simp [hby hj]
    · rcases hh.resolve_left hne with hj | hj | hj | hj <;> simp [hby hj]
    · rcases hx.resolve_left hne with ⟨n, hj⟩ | hj | hj
      · exact .inl ⟨n, hby hj⟩
      · simp [hby hj]
      · simp [hby hj]
    · exact absurd hne (by simp [hbase, hlen])

end Sys2Proof.Machine

/-! The Host's MEM accesses (20_memory.md R64, R79), idle register writes (10_state.md R37) and reset
(70_reset_and_hazards.md R250), field by field. -/

namespace Sys2Proof.Machine

section
variable {s t : State} {i : Instr} {off : Nat}

/-! ### Idle register writes (10_state.md R27 to R32) -/

theorem access_regWrite_of_idle (hb : s.status.busy = false) (v : Word) (r : Reg) {u : State}
    (hr : writeReg v s r = unlessBusy s u) :
    access (.regWrite (s.params.regBase + regOffset r) 32 v) s = .next u := by
  rw [access_regWrite_of_regAt v (regAt_regOffset s.params r), hr, unlessBusy, if_neg (by simp [hb])]

/-! ### MEM accesses (20_memory.md R63, R64) -/

/-- What a MEM read leaves where no running command writes the byte (20_memory.md R64). -/
theorem readMem_quiet (h : beingWritten s off = none) :
    readMem off s =
      match Mem.read? s.mem off with
      | some v => { s with replies := .byte v :: s.replies }
      | none => { s with replies := .byte (Config.freeByte s.draws) :: s.replies, draws := s.draws + 1 } := by
  rw [readMem, h]
  cases Mem.read? s.mem off <;> rfl

theorem readMem_racing (h : beingWritten s off = some i) :
    (readMem off s).replies =
      .byte (seenByte s.draws (if Config.freeBit s.draws = true then byteAfter i s off else Mem.read? s.mem off)) ::
        s.replies := by
  rw [readMem, h]
  rfl

theorem access_memRead (hoff : off < s.params.memSize) : access (.memRead off) s = .next (readMem off s) :=
  if_pos hoff

theorem access_memWrite (hoff : off < s.params.memSize) (b : Byte) :
    access (.memWrite off b) s =
      if inRunningFootprint s off = true then .fault (.hostMemRace off)
      else .next { s with mem := Mem.write s.mem off b } :=
  if_pos hoff

theorem beingWritten_of_idle (hb : s.status.busy = false) : beingWritten s off = none := by
  rw [beingWritten, running_of_idle hb, Option.filter_none]

theorem beingWritten_of_busy (hb : s.status.busy = true) (hi : decode s.cmdl = .ok i) :
    beingWritten s off = if inRange (writeRange i s) off = true then some i else none := by
  rw [beingWritten, running_of_busy hb hi, Option.filter_some]

theorem inRunningFootprint_of_idle (hb : s.status.busy = false) : inRunningFootprint s off = false := by
  rw [inRunningFootprint, running_of_idle hb]

theorem inRunningFootprint_of_busy (hb : s.status.busy = true) (hi : decode s.cmdl = .ok i) :
    inRunningFootprint s off = inFootprint i s off := by
  rw [inRunningFootprint, running_of_busy hb hi]

/-! ### Reset (70_reset_and_hazards.md R250) -/

theorem inRange_writeRange (i : Instr) (s : State) (off : Nat) :
    inRange (writeRange i s) off = true ↔
      (i = .pad ∨ i = .hash) ∧ base s + len s ≤ off ∧ off < base s + paddedLen (len s) := by
  rw [inRange_iff]
  cases i <;> simp [writeRange]

theorem running_eq_some : running s = some i ↔ s.status.busy = true ∧ decode s.cmdl = .ok i := by
  unfold running
  split <;> simp_all [fetch_eq_some]

/-- Reset forgets the write set of the running command alone. -/
theorem read_memAfterReset (s : State) (off : Nat) :
    Mem.read? (memAfterReset s) off =
      if s.status.busy = true ∧ (decode s.cmdl = .ok .pad ∨ decode s.cmdl = .ok .hash) ∧
          base s + len s ≤ off ∧ off < base s + paddedLen (len s) then none
      else Mem.read? s.mem off := by
  unfold memAfterReset
  cases hrun : running s with
  | some i =>
    obtain ⟨hb, hi⟩ := running_eq_some.1 hrun
    have hset := inRange_writeRange i s off
    simp only [read_unwrite, hset, hb, hi, Except.ok.injEq, true_and]
  | none =>
    refine (if_neg ?_).symm
    rintro ⟨hb, hi | hi, -⟩ <;> simp [running_of_busy hb hi] at hrun

end

/-! ### The obligations -/

/-- Settles O15: the four kinds of register are written outside `unlessBusy`'s busy branch. -/
theorem idleRegisterWrites : Obligations.IdleRegisterWrites := by
  intro s v i k hb
  refine ⟨access_regWrite_of_idle hb v .msgBase rfl, access_regWrite_of_idle hb v .msgLen rfl,
    ⟨s.h.set i v, access_regWrite_of_idle hb v (.h i) rfl, fun j => ?_⟩,
    ⟨s.x.set k v, access_regWrite_of_idle hb v (.x k) rfl, fun j => ?_⟩⟩
  · simp only [Fin.getElem_fin, Vector.getElem_set, Fin.val_inj, eq_comm]
  · simp only [Fin.getElem_fin, Vector.getElem_set, Fin.val_inj, eq_comm]

/-- Settles O18: `readReg` and `readMem` write the replies and the count of draws alone. -/
theorem hostReadsChangeNothing : Obligations.HostReadsChangeNothing := by
  intro s t e he h
  cases accessed_of_next h with
  | regRead _ _ r => exact readReg_frame r s
  | memRead off => exact readMem_frame off s
  | regWrite | memWrite | poll | reset => simp at he

/-- Settles O19: no command runs, so no byte is raced for. -/
theorem idleHostMemAccess : Obligations.IdleHostMemAccess := by
  intro s off b hb hoff
  refine ⟨⟨Mem.write s.mem off b, ?_, fun a => read_write s.mem off a b⟩, ?_⟩
  · rw [access_memWrite hoff, inRunningFootprint_of_idle hb]
    rfl
  · exact (access_memRead hoff).trans (congrArg _ (readMem_quiet (beingWritten_of_idle hb)))

/-- Settles O20: the running command is the latched one; its footprint decides a write, its write set a read. -/
theorem hostMemAccessWhileBusy : Obligations.HostMemAccessWhileBusy := by
  intro s i off b hb hi hoff
  refine ⟨fun hfoot => ?_, fun hset t ht => ?_, fun hset => ?_, fun hfoot => ?_⟩
  · rw [access_memWrite hoff, inRunningFootprint_of_busy hb hi, if_pos hfoot]
  · refine ⟨readMem off s, access_memRead hoff, ?_⟩
    rw [← byteAfter_exec hset ht]
    exact readMem_racing (by rw [beingWritten_of_busy hb hi, if_pos hset])
  · have hquiet : beingWritten s off = none := by
      rw [beingWritten_of_busy hb hi, hset]
      rfl
    exact (access_memRead hoff).trans (congrArg _ (readMem_quiet hquiet))
  · rw [access_memWrite hoff, inRunningFootprint_of_busy hb hi, hfoot]
    rfl

/-- Settles O21: the bound is checked first. -/
theorem hostMemAccessOutsideFaults : Obligations.HostMemAccessOutsideFaults :=
  fun _ _ _ hoff => ⟨if_neg (Nat.not_lt.2 hoff), if_neg (Nat.not_lt.2 hoff)⟩

/-- Settles O23: `resetBlock` field by field, MEM by `read_memAfterReset`. -/
theorem resetAbortsAndClears : Obligations.ResetAbortsAndClears := by
  intro s
  obtain ⟨-, -, -, -, -, hdout, hx, -⟩ := resetValuesOfRegisters s.params
  exact ⟨resetBlock s, rfl, rfl, rfl, rfl, rfl, rfl, hdout, hx, rfl, rfl, rfl, rfl, read_memAfterReset s⟩

end Sys2Proof.Machine

/-! The invariant (`State.Inv`): at reset, over every access and every complete step; what it rules out and what it
gives over a written MEM (10_state.md section 3, 30_encoding.md R101). -/

namespace Sys2Proof.Machine

section
variable {s t : State} {i : Instr} {e : Input}

/-! ### The CMD write (30_encoding.md R100) -/

theorem writeReg_cmd_cases (v : Word) (s : State) :
    writeReg v s .cmd =
      if s.status.busy = true then { s with status := s.status.overrun }
      else if legal v = true then { s with status := s.status.accepted, cmdl := v }
      else { s with status := s.status.illegal } := rfl

/-! ### Accesses keep the invariant -/

/-- A change of STATUS to a coherent one, with BUSY as it was. -/
theorem State.Inv.of_status {u : Status} (h : State.Inv s) (hb : u.busy = s.status.busy) (hu : u.coherent = true) :
    State.Inv { s with status := u } where
  params := h.params
  memForm := h.memForm
  memInside := h.memInside
  status := hu
  latch hbusy := h.latch (hb ▸ hbusy)
  plenAligned := h.plenAligned
  plenFits := h.plenFits
  fsm := h.fsm

theorem inv_writeReg (h : State.Inv s) (v : Word) (r : Reg) : State.Inv (writeReg v s r) := by
  have hover : State.Inv { s with status := s.status.overrun } := h.of_status rfl h.status
  cases r with
  | status | plen | reserved | dout => exact h
  | msgBase | msgLen | h | x =>
    simp only [writeReg, unlessBusy]
    split
    · exact hover
    · exact h.of_same rfl rfl rfl rfl rfl rfl
  | cmd =>
    rw [writeReg_cmd_cases]
    split
    · exact hover
    split
    next hv => exact { h with status := rfl, latch := fun _ => hv }
    next hb _ =>
      have hidle := Bool.eq_false_of_not_eq_true hb
      exact h.of_status rfl (by rw [Status.illegal_of_idle hidle]; rfl)

theorem inv_memWrite (h : State.Inv s) {off : Nat} (hoff : off < s.params.memSize) (b : Byte) :
    State.Inv { s with mem := Mem.write s.mem off b } :=
  { h with
    memForm := wf_write h.memForm off b
    memInside := fun c hc => by
      rcases mem_write hc with rfl | hc
      · exact hoff
      · exact h.memInside c hc }

theorem inv_resetWith {p : Params} (hp : p.ok = true) : State.Inv (State.resetWith p) where
  params := hp
  memForm := rfl
  memInside := nofun
  status := rfl
  latch := nofun
  plenAligned := rfl
  plenFits := Nat.zero_le _
  fsm := rfl

theorem mem_of_mem_memAfterReset {c : Host.Cell} (h : c ∈ memAfterReset s) : c ∈ s.mem := by
  unfold memAfterReset at h
  split at h
  · exact List.mem_of_mem_filter h
  · exact h

theorem wf_memAfterReset (h : Mem.wf s.mem = true) : Mem.wf (memAfterReset s) = true := by
  unfold memAfterReset
  split
  · exact wf_unwrite h _
  · exact h

theorem inv_resetBlock (h : State.Inv s) : State.Inv (resetBlock s) :=
  { inv_resetWith h.params with
    memForm := wf_memAfterReset h.memForm
    memInside := fun c hc => h.memInside c (mem_of_mem_memAfterReset hc) }

theorem inv_accessed (h : State.Inv s) (ha : Accessed s e t) : State.Inv t := by
  cases ha with
  | regRead _ _ r => exact h.of_same (by simp) (by simp) (by simp) (by simp) (by simp) (by simp)
  | regWrite _ _ v r => exact inv_writeReg h v r
  | memRead off => exact h.of_same (by simp) (by simp) (by simp) (by simp) (by simp) (by simp)
  | memWrite off b hoff => exact inv_memWrite h hoff b
  | poll =>
    rw [hostPoll_eq]
    exact h.of_same rfl rfl rfl rfl rfl rfl
  | reset => exact inv_resetBlock h

/-! ### A complete step keeps the invariant -/

/-- PAD's writes and PLEN lie inside MEM where the command has no error (41_padding.md R126). -/
theorem inv_padEffect (h : State.Inv s) (hend : base s + paddedLen (len s) ≤ s.params.memSize) :
    State.Inv (padEffect s) := by
  have hmax : s.params.memSize ≤ 2 ^ 32 - 64 := by
    have := h.params
    simp only [Params.ok, Bool.and_eq_true, decide_eq_true_eq] at this
    exact this.2
  have hplen := padEffect_plen_toNat hmax hend
  exact
    { h with
      memForm := wf_writeBytes h.memForm _ _
      memInside := below_writeBytes h.memInside _ _ (by rw [base_len_tail]; exact hend)
      plenAligned := by rw [hplen]; exact paddedLen_mod _
      plenFits := by rw [hplen]; exact Nat.le_trans (Nat.le_add_left _ _) hend }

theorem inv_effectOf (h : State.Inv s) (he : errorOf i s = none) : State.Inv (effectOf i s) := by
  rw [effectOf_frame]
  rcases effectOf_stores i s with ⟨hmem, hplen⟩ | ⟨hi, hmem, hplen⟩
  · exact h.of_same rfl hmem rfl rfl hplen rfl
  · have hend : base s + paddedLen (len s) ≤ s.params.memSize := by
      rcases hi with rfl | rfl <;> exact errorOf_hash_none_imp he
    exact (inv_padEffect h hend).of_same rfl hmem rfl rfl hplen rfl

theorem inv_exec (h : State.Inv s) (hb : s.status.busy = true) (hx : exec i s = .next t) : State.Inv t := by
  have hcoherent := exec_coherent hb h.status hx
  have hidle (h1 : t.status.busy = true) : legal t.cmdl = true := by simp [exec_busy hx] at h1
  rcases exec_next hx with ⟨c, -, rfl⟩ | ⟨he, -, rfl⟩
  · exact { h with status := hcoherent, latch := hidle }
  · exact { inv_effectOf h he with status := hcoherent, latch := hidle }

theorem inv_takeTurn (h : State.Inv s) : State.Inv (takeTurn s) := by
  rw [takeTurn_frame]
  exact h.of_same rfl rfl rfl rfl rfl rfl

/-! ### What the invariant gives -/

/-- The word latched while BUSY = 1 decodes (30_encoding.md R101). -/
theorem State.Inv.decodes (h : State.Inv s) (hb : s.status.busy = true) : ∃ i, decode s.cmdl = .ok i :=
  decode_of_legal (h.latch hb)

/-- Every byte of MEM written, a command inside MEM finds the bytes it reads. -/
theorem written_readSource (hw : Written s.mem 0 s.params.memSize) (he : errorOf i s = none) :
    Written (readSource i s) (readRange i s).1 (readCount i s) := by
  have hpart {a n : Nat} (h : a + n ≤ s.params.memSize) : Written s.mem a n :=
    fun off _ h2 => hw off (Nat.zero_le _) (by omega)
  cases i with
  | init | pad | compress | final => exact hpart (Nat.zero_le _)
  | loadblk n =>
    simp only [errorOf, unalignedLen, outOfRange, footEnd] at he
    exact hpart (a := blockBase n s) (n := 64) (by simpa using he)
  | digest => exact hpart (errorOf_digest_none_imp he).2
  | hash =>
    have hend := errorOf_hash_none_imp he
    have hlen : len s ≤ paddedLen (len s) := by unfold paddedLen; omega
    exact written_padEffect (hpart (by omega))

theorem exec_over_written (i : Instr) (hw : Written s.mem 0 s.params.memSize) : ∃ t, exec i s = .next t := by
  cases he : errorOf i s with
  | some c => exact ⟨_, exec_rejected he⟩
  | none => exact ⟨_, exec_of_written he (written_readSource hw he)⟩

end

/-! ### The obligations -/

/-- Settles O53: the reset state meets it field by field. -/
theorem invariantAtReset : Obligations.InvariantAtReset :=
  ⟨fun _ hp => inv_resetWith hp, rfl, inv_resetWith rfl⟩

/-- Settles O54: taking a turn, an access and a complete step each keep the invariant; a complete step runs only while
BUSY = 1. -/
theorem stepKeepsInvariant : Obligations.StepKeepsInvariant := by
  intro s t h hstep
  rcases step_cases hstep with ⟨-, rfl⟩ | ⟨-, e, rest, -, hacc⟩ | ⟨hcore, i, -, hexec⟩
  · exact h
  · have hu : State.Inv { takeTurn s with inputs := rest } := (inv_takeTurn h).of_same rfl rfl rfl rfl rfl rfl
    exact inv_accessed hu hacc
  · exact inv_exec (inv_takeTurn h) (by rw [takeTurn_status]; exact busy_of_nextAgent_core hcore) hexec

/-- Settles O48: the latched word decodes, and its command finds every byte written. -/
theorem coreCompletesOverWrittenMem : Obligations.CoreCompletesOverWrittenMem := by
  intro s h hcore hw
  have hb : (takeTurn s).status.busy = true := by rw [takeTurn_status]; exact busy_of_nextAgent_core hcore
  obtain ⟨i, hi⟩ := (inv_takeTurn h).decodes hb
  obtain ⟨t, ht⟩ := exec_over_written (s := takeTurn s) i (by rwa [takeTurn_mem, takeTurn_params])
  refine ⟨t, ?_, exec_busy ht⟩
  rw [step, hcore, ← ht]
  exact coreStep_of_decode hi

/-- Settles O49: neither an access nor a command refuses, and the latched word decodes. -/
theorem invariantRulesOutRefusal : Obligations.InvariantRulesOutRefusal := by
  intro s r h
  rw [step]
  split
  next hcore =>
    obtain ⟨i, hi⟩ := (inv_takeTurn h).decodes (by rw [takeTurn_status]; exact busy_of_nextAgent_core hcore)
    rw [coreStep_of_decode hi]
    exact exec_ne_refused i _ r
  next =>
    rw [hostStep]
    split
    · nofun
    · exact access_ne_refused _ _ r
  next => nofun

end Sys2Proof.Machine

/-! What the Host sees never depends on the hidden state (10_state.md section 4): what is visible after each operation
of the machine can be computed from what is visible before it. -/

namespace Sys2Proof.Machine

/-! ### Operations that do not look at the hidden state -/

/-- What is visible after f depends on what is visible before it. -/
def Blind (f : State → State) : Prop := ∀ s, (f s).visible = (f s.visible).visible

theorem visible_visible (s : State) : s.visible.visible = s.visible := by
  simp only [State.visible]
  congr 1
  split <;> rfl

theorem Blind.comp {f g : State → State} (hg : Blind g) (hf : Blind f) : Blind (fun s => g (f s)) := by
  intro s
  rw [hg (f s), hf s, ← hg (f s.visible)]

/-- An operation that passes the hidden state by. -/
theorem blind_of_commutes {f : State → State} (h : ∀ s, f s.visible = (f s).visible) : Blind f := fun s => by
  rw [h, visible_visible]

theorem visible_cmdl {s : State} (hb : s.status.busy = true) : s.visible.cmdl = s.cmdl := if_pos hb

/-! ### The parts of the commands' effects -/

theorem initH_blind : Blind initH := blind_of_commutes fun _ => rfl

theorem latchOut_blind : Blind latchOut := blind_of_commutes fun _ => rfl

theorem padEffect_blind : Blind padEffect := blind_of_commutes fun _ => rfl

theorem loadBlock_blind (a : Nat) : Blind (loadBlock a) :=
  blind_of_commutes fun s => by
    unfold loadBlock
    rfl

/-- The lanes are written whole, from H and X (42_compression.md R150, R155). -/
theorem compressEffect_blind : Blind compressEffect := fun s => by
  simp only [compressEffect, State.visible]
  congr 1
  split <;> simp [*]

theorem digestBlocks_blind (n a : Nat) : Blind (digestBlocks n a) := by
  induction n generalizing a with
  | zero => exact blind_of_commutes fun _ => rfl
  | succ n ih => exact ((ih (a + 64)).comp compressEffect_blind).comp (loadBlock_blind a)

theorem digestEffect_blind (n : Nat) : Blind (digestEffect n) := fun s =>
  ((latchOut_blind.comp (digestBlocks_blind (n / 64) (base s))).comp initH_blind) s

theorem effectOf_blind (i : Instr) : Blind (effectOf i) := by
  cases i with
  | init => exact initH_blind
  | pad => exact padEffect_blind
  | loadblk n => exact fun s => loadBlock_blind (blockBase n s) s
  | compress => exact compressEffect_blind
  | final => exact latchOut_blind
  | digest => exact fun s => digestEffect_blind (len s) s
  | hash => exact fun s => (digestEffect_blind (paddedLen (len s))).comp padEffect_blind s

/-- A completed command is no longer latched, so CMDL is hidden again. -/
theorem finish_blind : Blind finish := fun _ => rfl

theorem exec_blind (i : Instr) (s : State) :
    seenThrough State.visible (exec i s) = seenThrough State.visible (exec i s.visible) := by
  have herror : errorOf i s.visible = errorOf i s := by cases i <;> rfl
  have hsource : readSource i s.visible = readSource i s := by cases i <;> rfl
  have hrange : readRange i s.visible = readRange i s := by cases i <;> rfl
  have hcount : readCount i s.visible = readCount i s := by cases i <;> rfl
  rw [exec_eq i s, exec_eq i s.visible, seenThrough_checked, seenThrough_checked, seenThrough_reading,
    seenThrough_reading, herror, hsource, hrange, hcount]
  cases errorOf i s with
  | some c => rfl
  | none => exact congrArg (fun u => reading _ _ _ _ (.next u)) ((finish_blind.comp (effectOf_blind i)) s)

/-! ### Accesses -/

theorem running_visible (s : State) : running s.visible = running s := by
  cases hb : s.status.busy with
  | false => rw [running_of_idle hb, running_of_idle (s := s.visible) hb]
  | true =>
    unfold running fetch
    rw [visible_cmdl hb]
    rfl

theorem readReg_visible (r : Reg) (s : State) : readReg r s.visible = (readReg r s).visible := by
  have hvalue : regValue s.visible r = regValue s r := by cases r <;> rfl
  unfold readReg
  rw [hvalue, show s.visible.status = s.status from rfl]
  split <;> rfl

theorem readMem_visible (off : Nat) (s : State) : readMem off s.visible = (readMem off s).visible := by
  have hafter (i : Instr) : byteAfter i s.visible off = byteAfter i s off := by cases i <;> rfl
  have hwritten : beingWritten s.visible off = beingWritten s off := by
    unfold beingWritten
    rw [running_visible]
    congr 1
    funext i
    cases i <;> rfl
  unfold readMem
  rw [hwritten]
  split
  next i _ => rw [hafter]; rfl
  next => rw [show s.visible.mem = s.mem from rfl]; split <;> rfl

theorem hostPoll_visible (s : State) : hostPoll s.visible = (hostPoll s).visible := by
  rw [hostPoll_eq, hostPoll_eq]
  rfl

theorem inRunningFootprint_visible (s : State) (off : Nat) :
    inRunningFootprint s.visible off = inRunningFootprint s off := by
  unfold inRunningFootprint
  rw [running_visible]
  split
  next i _ => cases i <;> rfl
  next => rfl

/-- An accept of a legal word latches it, and everything else leaves CMDL alone. -/
theorem writeReg_blind (v : Word) (r : Reg) : Blind (fun s => writeReg v s r) := by
  intro s
  cases r with
  | status | plen | reserved | dout => exact (visible_visible s).symm
  | msgBase | msgLen | h | x =>
    cases hb : s.status.busy <;> simp [writeReg, unlessBusy, State.visible, Status.overrun, hb]
  | cmd =>
    cases hb : s.status.busy <;> cases hv : legal v <;>
      simp [writeReg_cmd_cases, State.visible, Status.overrun, Status.accepted, Status.illegal, Status.cleared, hb, hv]

theorem resetBlock_visible (s : State) : resetBlock s.visible = (resetBlock s).visible := by
  have hmem : memAfterReset s.visible = memAfterReset s := by
    unfold memAfterReset
    rw [running_visible]
    split
    next i _ => cases i <;> rfl
    next => rfl
  unfold resetBlock
  rw [hmem]
  rfl

theorem access_blind (e : Input) (s : State) :
    seenThrough State.visible (access e s) = seenThrough State.visible (access e s.visible) := by
  have hparams : s.visible.params = s.params := rfl
  cases e with
  | regRead addr width =>
    simp only [access, hostRead, hparams]
    split
    next r _ => exact congrArg Host.Outcome.next (blind_of_commutes (readReg_visible r) s)
    next => rfl
  | regWrite addr width v =>
    simp only [access, hostWrite, hparams]
    split
    next r _ => exact congrArg Host.Outcome.next (writeReg_blind v r s)
    next => rfl
  | memRead off =>
    simp only [access, hostMemRead, hparams]
    split
    next => exact congrArg Host.Outcome.next (blind_of_commutes (readMem_visible off) s)
    next => rfl
  | memWrite off b =>
    simp only [access, hostMemWrite, hparams, inRunningFootprint_visible]
    split
    · split
      · rfl
      · exact congrArg Host.Outcome.next (visible_visible { s with mem := Mem.write s.mem off b }).symm
    · rfl
  | poll => exact congrArg Host.Outcome.next (blind_of_commutes hostPoll_visible s)
  | reset => exact congrArg Host.Outcome.next (blind_of_commutes resetBlock_visible s)

/-! ### One step -/

theorem takeTurn_visible (s : State) : takeTurn s.visible = (takeTurn s).visible := by
  unfold takeTurn
  rw [show contended s.visible = contended s from rfl]
  split <;> rfl

theorem hostStep_blind (s : State) :
    seenThrough State.visible (hostStep s) = seenThrough State.visible (hostStep s.visible) := by
  unfold hostStep
  rw [show s.visible.inputs = s.inputs from rfl]
  split
  next => exact congrArg Host.Outcome.next (visible_visible s).symm
  next e rest _ => exact access_blind e { s with inputs := rest }

/-- The Core reads CMDL only while BUSY = 1, when it is visible. -/
theorem coreStep_blind {s : State} (hb : s.status.busy = true) :
    seenThrough State.visible (coreStep s) = seenThrough State.visible (coreStep s.visible) := by
  unfold coreStep fetch
  rw [visible_cmdl hb]
  split
  next i _ => exact exec_blind i s
  next => rfl

theorem step_blind (s : State) :
    seenThrough State.visible (step s) = seenThrough State.visible (step s.visible) := by
  unfold step
  rw [show nextAgent s.visible = nextAgent s from rfl, takeTurn_visible]
  split
  next hcore => exact coreStep_blind (by rw [takeTurn_status]; exact busy_of_nextAgent_core hcore)
  next => exact hostStep_blind (takeTurn s)
  next => exact congrArg Host.Outcome.next (visible_visible s).symm

/-! ### The obligation -/

/-- Settles O55: both steps look like the step of the one visible state (`step_blind`). -/
theorem hiddenStateIsNeverSeen : Obligations.HiddenStateIsNeverSeen := by
  intro a b h
  rw [step_blind a, step_blind b, h]

end Sys2Proof.Machine

/-! The pure functions: the mixing functions and the lanes' selections (42_compression.md R141 to R143, R151), the
padded length and the padded message (41_padding.md R120 to R125). -/

namespace Sys2Proof.Machine

/-! ### Mixing (42_compression.md R141, R142) -/

theorem fSel_ne_f5 (l : Lane) (q : Nat) : fSel l q ≠ .f5 := by
  match l, q with
  | .left, 0 | .left, 1 | .left, 2 | .left, _ + 3 => nofun
  | .right, 0 | .right, 1 | .right, 2 | .right, _ + 3 => nofun

/-- Bit by bit, x chooses between y and z. -/
theorem xor_and_xor (x y z : Word) : z ^^^ (x &&& (y ^^^ z)) = (x &&& y) ||| (~~~x &&& z) := by
  apply BitVec.eq_of_getLsbD_eq
  intro k hk
  simp only [BitVec.getLsbD_xor, BitVec.getLsbD_and, BitVec.getLsbD_or, BitVec.getLsbD_not, hk, decide_true,
    Bool.true_and]
  cases x.getLsbD k <;> simp [Bool.xor_left_comm]

/-! ### Padding (41_padding.md R120 to R125) -/

theorem paddedLen_ge (L : Nat) : L + 9 ≤ paddedLen L := by
  have := (padlen_bounds L).1
  unfold paddedLen
  omega

/-- No multiple of 64 holds L + 9 bytes in fewer. -/
theorem paddedLen_least {L m : Nat} (h64 : m % 64 = 0) (hm : L + 9 ≤ m) : paddedLen L ≤ m := by
  rw [paddedLen_eq]
  omega

theorem padMessage_length (m : List Byte) : (padMessage m).length = paddedLen m.length := by
  rw [padMessage, List.length_append, padTail_length, paddedLen, Nat.add_assoc]

/-- The padded message up to its length field. -/
theorem padMessage_eq (m : List Byte) :
    padMessage m = (m ++ 0x80#8 :: zeros (padlen m.length - 1)) ++ lengthField m.length := by
  rw [padMessage, padTail, List.append_assoc, List.cons_append]

/-! ### The obligations -/

/-- Settles O26: the tables by evaluation, f2 and f4 by the one bitwise choice. -/
theorem mixingFunctionForms : Obligations.MixingFunctionForms := by
  refine ⟨rfl, rfl, rfl, rfl, fSel_ne_f5, fun x y z => ⟨rfl, rfl, xor_and_xor x y z, rfl, rfl, ?_, rfl⟩⟩
  rw [mix, xor_and_xor, BitVec.and_comm z x, BitVec.and_comm _ y]

/-- Settles O29: neither lane's step reads the other lane (`lanesAfter_eq_laneAlone`). -/
theorem lanesAreIndependent : Obligations.LanesAreIndependent := lanesAfter_eq_laneAlone

/-- Settles O31: P(L) is the first multiple of 64 from L + 9 on. -/
theorem paddedLengthIsBlockMultiple : Obligations.PaddedLengthIsBlockMultiple := by
  intro L
  have hge := paddedLen_ge L
  have hmod := paddedLen_mod L
  exact ⟨rfl, hmod, by omega, paddedLen_eq L, hge, fun m => paddedLen_least⟩

/-- Settles O32: the parts of the padded message stand one after the other. -/
theorem paddedMessageShape : Obligations.PaddedMessageShape := by
  intro m
  refine ⟨by rw [padMessage_length, paddedLen_mod], ?_, ?_, ?_⟩
  · rw [padMessage, List.getElem?_append_right le_rfl, Nat.sub_self]
    rfl
  · have hlen : (m ++ 0x80#8 :: zeros (padlen m.length - 1)).length = paddedLen m.length - 8 := by
      have := (padlen_bounds m.length).1
      simp only [List.length_append, List.length_cons, zeros_length, paddedLen]
      omega
    rw [padMessage_eq, ← hlen, List.drop_left]
    rfl
  · rw [padMessage, List.take_left]

end Sys2Proof.Machine

/-! DIGEST and HASH: what they leave in every register (43_sequencer.md R188, R192), that HASH is PAD then DIGEST, and
that the single commands in order are DIGEST (R194). -/

namespace Sys2Proof.Machine

section
variable {s t : State}

/-! ### DIGEST over whole blocks (43_sequencer.md R187, R188) -/

/-- H after DIGEST's effect is the fold of the buffer's blocks; X holds the last one. -/
theorem digestEffect_blocks {n : Nat} (s : State) (hn : n % 64 = 0) :
    (digestEffect n s).h = foldBytes (bytesAt s.mem (base s) n) (n / 64) ∧
      (digestEffect n s).x = if n = 0 then s.x else blockAt s.mem (base s + n - 64) := by
  have hloop := digestBlocks_eq_foldBytes s.mem (base s) n (n / 64) 0 (initH s) rfl rfl (by omega)
  have hblocks : 64 * (n / 64) = n := by omega
  have hzero : n / 64 = 0 ↔ n = 0 := by omega
  simp only [Nat.mul_zero, Nat.add_zero, Nat.zero_add, hblocks, hzero, initH_x] at hloop
  exact hloop

/-- DIGEST of a written buffer of whole blocks inside MEM. -/
theorem exec_digest (h64 : len s % 64 = 0) (hend : base s + len s ≤ s.params.memSize)
    (hw : Written s.mem (base s) (len s)) : exec .digest s = .next (finish (digestEffect (len s) s)) :=
  exec_done (errorOf_digest_none h64 hend) hw

/-- HASH of a written message whose padded form is inside MEM. -/
theorem exec_hash (hend : base s + paddedLen (len s) ≤ s.params.memSize) (hw : Written s.mem (base s) (len s)) :
    exec .hash s = .next (finish (digestEffect (paddedLen (len s)) (padEffect s))) :=
  exec_done (errorOf_hash_none hend) (written_padEffect hw)

/-! ### What DIGEST and HASH leave (43_sequencer.md R188, R192) -/

theorem exec_completed {i : Instr} (h : exec i s = .next t) (he : errorOf i s = none) :
    t.status = s.status.completed := by
  rw [exec_status h, he]

theorem digest_next_x (h : exec .digest s = .next t) (he : errorOf .digest s = none) :
    t.x = if len s = 0 then s.x else blockAt s.mem (base s + len s - 64) := by
  rcases exec_next h with ⟨c, hc, -⟩ | ⟨-, -, rfl⟩
  · rw [he] at hc
    cases hc
  · exact (digestEffect_blocks s (errorOf_digest_none_imp he).1).2

theorem hash_next_stores (h : exec .hash s = .next t) (he : errorOf .hash s = none) :
    t.mem = (padEffect s).mem ∧ t.plen = (padEffect s).plen ∧
      t.x = blockAt (padEffect s).mem (base s + paddedLen (len s) - 64) := by
  rcases exec_next h with ⟨c, hc, -⟩ | ⟨-, -, rfl⟩
  · rw [he] at hc
    cases hc
  · refine ⟨digestEffect_mem _ _, digestEffect_plen _ _, (digestEffect_blocks _ (paddedLen_mod _)).2.trans ?_⟩
    have := paddedLen_ge (len s)
    rw [if_neg (by omega), base_padEffect]

/-! ### HASH as PAD, then DIGEST over PLEN bytes (43_sequencer.md section 1) -/

/-- The state in which DIGEST follows a completed PAD: DONE is set, and MSG_LEN is l. -/
def withLenDone (l : Word) (s : State) : State := { s with msgLen := l, status := s.status.completed }

theorem withLenDone_unseen (l : Word) : Unseen (withLenDone l) where
  base _ := rfl
  initH _ := rfl
  loadBlock _ _ := rfl
  compressEffect s := by simp only [withLenDone, compressEffect]
  latchOut _ := rfl

/-! ### The single commands in order (43_sequencer.md R194) -/

theorem finish_unseen : Unseen finish where
  base _ := rfl
  initH _ := rfl
  loadBlock _ _ := rfl
  compressEffect s := by simp only [finish, compressEffect]
  latchOut _ := rfl

theorem finish_finish (s : State) : finish (finish s) = finish s := rfl

theorem execAll_cons {i : Instr} {rest : List Instr} (h : exec i s = .next t) :
    execAll (i :: rest) s = execAll rest t := by
  rw [execAll, h]

/-- LOADBLK and COMPRESS of n blocks from block k on, after a completed command: the block loop. -/
theorem execAll_blockCommands (n k : Nat) (s : State) (rest : List Instr)
    (hend : base s + 64 * (k + n) ≤ s.params.memSize) (hw : Written s.mem (base s) (64 * (k + n))) :
    execAll (blockCommands k n ++ rest) (finish s) =
      execAll rest (finish (digestBlocks n (base s + 64 * k) s)) := by
  induction n generalizing k s with
  | zero => rfl
  | succ n ih =>
    have hload : exec (.loadblk k) (finish s) = .next (finish (loadBlock (base s + 64 * k) s)) :=
      exec_done (errorOf_loadblk_none (by simp only [blockBase, base_finish, finish_params]; omega))
        fun off h1 h2 => hw off (by simp only [blockBase, base_finish] at h1; omega)
          (by simp only [blockBase, base_finish] at h2; omega)
    have hcompress (u : State) : exec .compress (finish u) = .next (finish (compressEffect u)) := by
      rw [exec_done (errorOf_compress _) trivial, effectOf, finish_unseen.compressEffect, finish_finish]
    rw [blockCommands, List.cons_append, List.cons_append, execAll_cons hload, execAll_cons (hcompress _),
      digestBlocks, show base s + 64 * k + 64 = base s + 64 * (k + 1) by omega]
    have hbase : base (compressEffect (loadBlock (base s + 64 * k) s)) = base s := by
      rw [base_compressEffect, base_loadBlock]
    have hparams : (compressEffect (loadBlock (base s + 64 * k) s)).params = s.params := by
      rw [compressEffect_params, loadBlock_params]
    have hmem : (compressEffect (loadBlock (base s + 64 * k) s)).mem = s.mem := by
      rw [compressEffect_mem, loadBlock_mem]
    generalize compressEffect (loadBlock (base s + 64 * k) s) = u at hbase hparams hmem ⊢
    have hsplit : k + 1 + n = k + (n + 1) := by omega
    rw [ih (k + 1) u (by rwa [hbase, hparams, hsplit]) (by rwa [hbase, hmem, hsplit]), hbase]

end

/-! ### The obligations -/

/-- Settles O36: DIGEST completes, H and X are what the block loop gives, and a complete step changes nothing else. -/
theorem digestComputesDigestFn : Obligations.DigestComputesDigestFn := by
  intro s B L h64 hend hw
  obtain ⟨t, ht⟩ : ∃ t, exec .digest s = .next t := ⟨_, exec_digest h64 hend hw⟩
  have he := errorOf_digest_none (s := s) h64 hend
  obtain ⟨hh, hdout⟩ := digest_next_h ht he
  have hframe := exec_frame ht
  rw [exec_completed ht he, (exec_mem ht).resolve_right (by simp), (exec_plen ht).resolve_right (by simp)] at hframe
  refine ⟨t, ht, ?_, hdout, digest_next_x ht he, hframe⟩
  rw [hh, digestFn, bytesAt_length]
  rfl

/-- Settles O37: HASH completes, MEM holds the padded message, H and X are what the block loop gives of it, and a
complete step changes nothing else. -/
theorem hashComputesHashFn : Obligations.HashComputesHashFn := by
  intro s B L P hmax hend hw
  obtain ⟨t, ht⟩ : ∃ t, exec .hash s = .next t := ⟨_, exec_hash hend hw⟩
  have he := errorOf_hash_none (s := s) hend
  obtain ⟨hh, hdout⟩ := hash_next_h ht he
  obtain ⟨hmem, hplen, hx⟩ := hash_next_stores ht he
  have hframe := exec_frame ht
  rw [exec_completed ht he] at hframe
  refine ⟨t, ht, ?_, hdout, ?_, ?_, ?_, fun off hoff => ?_, hframe⟩
  · rw [hh, hashFn, digestFn, padMessage_length, bytesAt_length]
    rfl
  · rw [hplen]
    exact padEffect_plen_toNat hmax hend
  · rw [hmem]
    exact bytesAt_padEffect s
  · rw [hmem]
    exact hx
  · rw [hmem]
    exact hoff.elim (read_padEffect_before s) (read_padEffect_after s)

/-- Settles O38: DIGEST's effect sees neither STATUS nor MSG_LEN (`withLenDone_unseen`). -/
theorem hashIsPadThenDigest : Obligations.HashIsPadThenDigest := by
  intro s hmax hend hw
  have hplen := padEffect_plen_toNat (s := s) hmax hend
  have hu : len (withLenDone (padEffect s).plen (padEffect s)) = paddedLen (len s) := hplen
  refine ⟨finish (padEffect s), _, exec_done (errorOf_pad_none hend) trivial,
    exec_digest (s := withLenDone (padEffect s).plen (padEffect s)) ?_ ?_ ?_, ?_⟩
  · rw [hu, paddedLen_mod]
  · rw [hu]
    exact hend
  · rw [hu]
    exact written_padEffect hw
  · rw [exec_hash hend hw, hu, digestEffect_unseen (withLenDone_unseen _)]
    have hlen : (digestEffect (paddedLen (len s)) (padEffect s)).msgLen = s.msgLen := by rw [digestEffect_frame]; rfl
    rw [← hlen]
    rfl

/-- Settles O39: the sequence and DIGEST answer the very same state. -/
theorem stepwiseCommandsEqualDigest : Obligations.StepwiseCommandsEqualDigest := by
  intro s N hlen hend hw
  have hl : len s = 64 * N := hlen
  have hdigest : exec .digest s = .next (finish (digestEffect (64 * N) s)) := by
    rw [exec_digest (by omega) (by rw [hl]; exact hend) (by rw [hl]; exact hw), hl]
  have hblocks := execAll_blockCommands N 0 (initH s) [.final] (by rwa [Nat.zero_add]) (by rwa [Nat.zero_add])
  have hseq : execAll ([.init] ++ blockCommands 0 N ++ [.final]) s = .next (finish (digestEffect (64 * N) s)) := by
    rw [List.append_assoc, List.singleton_append, execAll_cons (exec_init s), hblocks, execAll_cons (exec_final _),
      finish_unseen.latchOut, finish_finish, digestEffect, Nat.mul_div_cancel_left N (by omega), execAll, base_initH,
      Nat.mul_zero, Nat.add_zero]
  refine ⟨_, _, hseq, hdigest, rfl, rfl, rfl, ?_, fun _ => rfl⟩
  rw [finish_msgLen, digestEffect_frame]

/-- Settles O40: no block, so H is IV and X stays. -/
theorem digestOfEmptyBuffer : Obligations.DigestOfEmptyBuffer := by
  intro s hzero hend
  have hlen : len s = 0 := by rw [len, hzero]; rfl
  rw [exec_digest (by rw [hlen]) (by rw [hlen]; exact hend) (by rw [hlen]; intro off h1 h2; omega), hlen]
  rfl

/-- Settles O41: H and DOUT are the fold of the bytes read, from IV. -/
theorem noStateCarriesOver : Obligations.NoStateCarriesOver := by
  intro a b t u hlen hbytes i hi hea heb ha hb
  have hl : len a = len b := congrArg BitVec.toNat hlen
  have hbs : bytesAt a.mem (base a) (len a) = bytesAt b.mem (base b) (len b) := hbytes
  have hh : t.h = u.h ∧ t.dout = t.h ∧ u.dout = u.h := by
    rcases hi with rfl | rfl
    · obtain ⟨ht, htd⟩ := digest_next_h ha hea
      obtain ⟨hu, hud⟩ := digest_next_h hb heb
      exact ⟨by rw [ht, hu, hbs, hl], htd, hud⟩
    · obtain ⟨ht, htd⟩ := hash_next_h ha hea
      obtain ⟨hu, hud⟩ := hash_next_h hb heb
      exact ⟨by rw [ht, hu, hbs, hl], htd, hud⟩
  obtain ⟨hh, htd, hud⟩ := hh
  exact ⟨hh, by rw [htd, hud, hh]⟩

end Sys2Proof.Machine

/-! The reference sequencer (43_sequencer.md R200) against the atomic complete step: from CHECK each command's states do
the command's reads and its effect, and end in IDLE. -/

namespace Sys2Proof.Machine

section
variable {i : Instr} {s : State}

/-! ### The first and the last transitions -/

theorem errorOf_moved (i : Instr) (c b : Nat) (f : Fsm) (s : State) : errorOf i (moved c b f s) = errorOf i s := by
  cases i <;> rfl

/-- IDLE and CHECK. -/
theorem fsmRun_check (hb : s.status.busy = true) (hf : s.fsm = .idle) (n : Nat) :
    fsmRun i (n + 2) s = fsmRun i n (fsmCheck i (moved s.stepCtr s.blkCtr .check s)) := by
  have hmove : fsmMove i s = .next (moved s.stepCtr s.blkCtr .check s) := by
    simp only [fsmMove, hf, hb, if_true, moved]
  rw [fsmRun_next hmove]
  exact fsmRun_next rfl n

/-- A command with an error ends in IDLE with STATUS written (60_exceptions.md R221). -/
theorem fsmRun_rejected {e : ECode} (hb : s.status.busy = true) (hf : s.fsm = .idle) (he : errorOf i s = some e) :
    fsmRun i 3 s = .next (moved s.stepCtr s.blkCtr .idle (reject e s)) := by
  have hcheck : fsmCheck i (moved s.stepCtr s.blkCtr .check s) = moved s.stepCtr s.blkCtr .errset s := by
    unfold fsmCheck
    rw [errorOf_moved, he]
    rfl
  have herrset : fsmErrset i (moved s.stepCtr s.blkCtr .errset s) = moved s.stepCtr s.blkCtr .idle (reject e s) := by
    unfold fsmErrset
    rw [errorOf_moved, he]
    rfl
  rw [fsmRun_check hb hf, hcheck, ← herrset]
  rfl

/-- BLK after CHECK: LOADBLK's n, or as it was (log entry 21). -/
def checkedBlk : Instr → State → Nat
  | .loadblk n, _ => n
  | .init, s | .pad, s | .compress, s | .final, s | .digest, s | .hash, s => s.blkCtr

/-- A command with no error goes on to its first state. -/
theorem fsmRun_checked (hb : s.status.busy = true) (hf : s.fsm = .idle) (he : errorOf i s = none) (n : Nat) :
    fsmRun i (n + 2) s = fsmRun i n (moved s.stepCtr (checkedBlk i s) (firstState i) s) := by
  have hcheck : fsmCheck i (moved s.stepCtr s.blkCtr .check s) =
      moved s.stepCtr (checkedBlk i s) (firstState i) s := by
    unfold fsmCheck
    rw [errorOf_moved, he]
    cases i <;> rfl
  rw [fsmRun_check hb hf, hcheck]

theorem fsmRun_done (i : Instr) (c b : Nat) (s : State) :
    fsmRun i 1 (moved c b .done s) = .next (moved c b .idle (finish s)) := rfl

theorem fsmRun_latch (i : Instr) (c b : Nat) (s : State) :
    fsmRun i 2 (moved c b .latch s) = .next (moved c b .idle (finish (latchOut s))) := rfl

/-! ### The commands from their first states -/

theorem fsmRun_pad_tail (i : Instr) (c b : Nat) (s : State) :
    fsmRun i (padTail (len s)).length (moved c b (.padw 0) s) =
      .next (afterPadw i (moved c b (.padw 0) (padEffect s))) :=
  fsmRun_padw i (padTail (len s)).length 0 (moved c b (.padw 0) s) (Nat.zero_add _)
    (by rw [padTail_length]; omega) rfl

theorem fsmRun_load_done (n c : Nat) (s : State) :
    fsmRun (.loadblk n) 64 (moved c n (.load 0) s) =
      reading (.loadblk n) s.mem (blockBase n s) 64 (.next (moved c n .done (loadBlock (blockBase n s) s))) := by
  refine (fsmRun_load_block (.loadblk n) (moved c n (.load 0) s) rfl).trans ?_
  unfold loadBlock moved
  rfl

theorem fsmRun_linit_compress (c b : Nat) (s : State) :
    fsmRun .compress 66 (moved c b .linit s) = .next (moved 64 b .done (compressEffect s)) := by
  rw [show 66 = 65 + 1 from rfl, fsmRun_add (fsmRun_lanes .compress (moved c b .linit s) rfl)]
  refine fsmRun_next (t := moved 64 b .done (compressEffect s)) ?_ 0
  simp only [fsmMove, fsmComb, moved, compressEffect]

/-- IVLD to IDLE: the block loop of DIGEST and HASH, then LATCH and DONE. -/
theorem fsmRun_ivld (hi : loops i) (c b : Nat) (s : State) :
    ∃ n c', fsmRun i n (moved c b .ivld s) =
      reading i s.mem (base s) (64 * blockCount i s)
        (.next (moved c' (blockCount i s) .idle (finish (digestEffect (64 * blockCount i s) s)))) := by
  have hcount : blockCount i (moved c b .ivld s) = blockCount i s := blockCount_congr i rfl
  have hmove : fsmMove i (moved c b .ivld s) =
      .next (moved c 0 (if 0 < blockCount i s then .load 0 else .latch) (initH s)) := by
    rw [← hcount]
    rfl
  rw [digestEffect, Nat.mul_div_cancel_left _ (by omega : 0 < 64)]
  by_cases hn : 0 < blockCount i s
  · rw [if_pos hn] at hmove
    have hloop := fsmRun_blocks i hi (blockCount i s) (moved c 0 (.load 0) (initH s)) hn rfl
      ((Nat.zero_add _).trans (blockCount_congr i rfl))
    have hmem : (moved c 0 (.load 0) (initH s)).mem = s.mem := rfl
    have hblk : (moved c 0 (.load 0) (initH s)).blkCtr = 0 := rfl
    have hbase : blockBase 0 (moved c 0 (.load 0) (initH s)) = base s := rfl
    rw [hmem, hblk, hbase, Nat.zero_add,
      digestBlocks_commutes _ _ _ (moved c 0 (.load 0)) (fun u a => moved_loadBlock _ _ a _ u)
        (fun u => moved_compressEffect _ _ _ u),
      moved_moved] at hloop
    refine ⟨130 * blockCount i s + 2 + 1, 64, ?_⟩
    rw [fsmRun_next hmove, fsmRun_reading hloop, fsmRun_latch]
  · have hzero : blockCount i s = 0 := by omega
    rw [if_neg hn] at hmove
    refine ⟨3, c, ?_⟩
    rw [fsmRun_next hmove, fsmRun_latch, hzero]
    rfl

/-- From IDLE a command with no error reads and does what `exec` reads and does. -/
theorem fsmRun_completed (hb : s.status.busy = true) (hf : s.fsm = .idle) (he : errorOf i s = none) :
    ∃ n c b, fsmRun i n s = reading i (readSource i s) (readRange i s).1 (readCount i s)
      (.next (moved c b .idle (finish (effectOf i s)))) := by
  have hstart := fsmRun_checked hb hf he
  cases i with
  | init =>
    simp only [readSource, readRange, readCount, reading_zero, effectOf]
    exact ⟨2 + 2, s.stepCtr, s.blkCtr, hstart 2⟩
  | final =>
    simp only [readSource, readRange, readCount, reading_zero, effectOf]
    exact ⟨2 + 2, s.stepCtr, s.blkCtr, (hstart 2).trans (fsmRun_latch _ _ _ s)⟩
  | pad =>
    simp only [readSource, readRange, readCount, reading_zero, effectOf]
    exact ⟨_, s.stepCtr, s.blkCtr, (hstart _).trans (fsmRun_pad_tail .pad _ _ s)⟩
  | loadblk n =>
    simp only [readSource, readRange, readCount, effectOf]
    have hrun := fsmRun_reading (fsmRun_load_done n s.stepCtr s) 1
    rw [fsmRun_done] at hrun
    exact ⟨64 + 1 + 2, s.stepCtr, n, (hstart _).trans hrun⟩
  | compress =>
    simp only [readSource, readRange, readCount, reading_zero, effectOf]
    have hrun := fsmRun_add (fsmRun_linit_compress s.stepCtr s.blkCtr s) 1
    rw [fsmRun_done] at hrun
    exact ⟨66 + 1 + 2, 64, s.blkCtr, (hstart _).trans hrun⟩
  | digest =>
    obtain ⟨n, c, hrun⟩ := fsmRun_ivld (i := .digest) trivial s.stepCtr s.blkCtr s
    have hcount : 64 * blockCount .digest s = len s := by
      have := (errorOf_digest_none_imp he).1
      rw [blockCount]
      omega
    rw [hcount] at hrun
    exact ⟨n + 2, c, blockCount .digest s, (hstart n).trans hrun⟩
  | hash =>
    obtain ⟨n, c, hrun⟩ := fsmRun_ivld (i := .hash) trivial s.stepCtr s.blkCtr (padEffect s)
    have hcount : 64 * blockCount .hash (padEffect s) = paddedLen (len s) := by
      have := paddedLen_mod (len s)
      rw [blockCount, len_padEffect]
      omega
    rw [hcount] at hrun
    have htail := fsmRun_add (fsmRun_pad_tail .hash s.stepCtr s.blkCtr s) n
    exact ⟨_, c, blockCount .hash (padEffect s), (hstart _).trans (htail.trans hrun)⟩

end

/-! ### The obligation -/

theorem apart_moved (c b : Nat) (f : Fsm) (s : State) : (moved c b f s).apart = s.apart := rfl

/-- Settles O56: a rejected command takes three transitions, another as many as its reads and its effect take. -/
theorem referenceSequencerRefines : Obligations.ReferenceSequencerRefines := by
  intro s i hb hf
  cases he : errorOf i s with
  | some e =>
    have hrun := fsmRun_rejected hb hf he
    refine ⟨3, ?_, fun t ht => ?_⟩
    · rw [hrun, exec_rejected he, seenThrough, apart_moved]
      rfl
    · rw [hrun] at ht
      cases ht
      exact ⟨rfl, rfl⟩
  | none =>
    obtain ⟨n, c, b, hrun⟩ := fsmRun_completed hb hf he
    refine ⟨n, ?_, fun t ht => ?_⟩
    · rw [hrun, exec_of_no_error he, seenThrough_reading, seenThrough_reading, seenThrough, apart_moved]
      rfl
    · rw [hrun] at ht
      obtain ⟨-, ht⟩ := reading_next ht
      cases ht
      exact ⟨rfl, rfl⟩

end Sys2Proof.Machine
